-- ==== Sys2Proof/Word.lean ====
section
/-! DEFINITION. The value types of the PHOTON-128 engine (spec 00_scope.md R7: every value is unsigned; bit 0 is
the least significant bit). -/

namespace Sys2Proof

/-- A byte is 8 bits (R7). -/
abbrev Byte := BitVec 8

/-- A nibble or cell is 4 bits (R7). -/
abbrev Nibble := BitVec 4

/-- A command word and a response word are 32 bits (R70, R76). -/
abbrev Word := BitVec 32

end Sys2Proof
end

