-- ==== Sys2Proof/Syntax.lean ====
section
/-! DEFINITION. The ten commands of spec/opcode_table.json (R71) with their decoded operands (R75), and the assembler's
lines, the pseudo-instruction HASH among them (R81, R82). -/

namespace Sys2Proof

/-- One constructor per row of the opcode map (R71). The operands are the ones R79's decode returns, each of its own
width, so every term spells a command: GFMUL's operands are the low nibbles, and the ignored high nibbles are no part
of the command (R75). -/
inductive Instr where
  | init
  | absorb (b0 b1 : Byte)
  | pad0
  | pad1 (b : Byte)
  | squeeze
  | permute
  | gfmul (a b : Nibble)
  | rdstate (k : Byte)
  | wrstate (k v : Byte)
  | rdstatus
  deriving DecidableEq, Repr

/-- The mnemonics of R71, as an assembler line writes them. -/
inductive Mnemonic where
  | init | absorb | pad0 | pad1 | squeeze | permute | gfmul | rdstate | wrstate | rdstatus
  deriving DecidableEq, Repr

/-- An operand as written (R81): a number, in hex or decimal, or a quoted ASCII character. -/
inductive AsmOperand where
  | num (n : Nat)
  | ascii (c : Char)
  deriving DecidableEq, Repr

/-- A line of an assembler program: a mnemonic with its operands (R81), or the pseudo-instruction HASH with its
message (R82). -/
inductive AsmLine where
  | command (m : Mnemonic) (operands : List AsmOperand)
  | hash (message : List Byte)
  deriving DecidableEq, Repr

end Sys2Proof
end

