-- ==== Sys2Proof/Machine/State.lean ====
section
/-! DEFINITION. The state of one engine instance (R20) and of its command port, and the reasons a call can stop. -/

namespace Sys2Proof.Machine

/-- S, "an ordered sequence of 18 bytes (144 bits)", indexed 0 to 17 (R21). The byte packing is authoritative (R23). -/
abbrev Grid := Vector Byte 18

/-- PHASE (R26): all four values of the 2-bit register are legal. -/
inductive Phase where
  /-- No hash has begun since reset. -/
  | idle
  /-- INIT has run and the message is being absorbed. -/
  | absorb
  /-- Padding has been absorbed and digest pairs are being emitted. -/
  | squeeze
  /-- All 8 digest pairs have been emitted. -/
  | done
  deriving DecidableEq, Repr

/-- The three error codes of R200. -/
inductive ErrCode where
  /-- The word spells no command (R201). -/
  | illegal
  /-- A sponge command outside its phase (R202). -/
  | sequence
  /-- A state index k ≥ 18 (R204). -/
  | range
  deriving DecidableEq, Repr

/-- The engine state record E = (S, PHASE, SQCNT, ERR) of R20. -/
structure Engine where
  /-- The 18-byte permutation state (R21). -/
  S : Grid
  /-- The 2-bit sponge phase (R26). -/
  phase : Phase
  /-- The 4-bit counter of SQUEEZEs since the last padding (R27). -/
  sqcnt : BitVec 4
  /-- The 2-bit first-error latch (R28): none is the value 0. -/
  err : Option ErrCode
  deriving DecidableEq, Repr

/-- What the host does at the block's port, one entry per act, in the order it takes effect (R10, R61, R230, R235). -/
inductive HostEvent where
  /-- A command word written to the command port (R50). -/
  | command (w : Word)
  /-- A reset while no command executes (R230). -/
  | reset
  /-- A command word whose execution a reset interrupts (R235). -/
  | commandCutByReset (w : Word)
  deriving DecidableEq, Repr

/-- The engine and its port. The spec's architectural state is `engine` alone (R20). -/
structure State where
  /-- E (R20). -/
  engine : Engine
  /-- The host's acts that the block has not taken yet, the next one first (R236: a write while the block is busy is
  held, not dropped). The model's own field: log entry 2. -/
  pending : List HostEvent
  /-- The response words returned so far, oldest first (R76, R236). The model's own field: log entry 3. -/
  responses : List Word
  deriving DecidableEq, Repr

/-- Why the machine stops with a fault. No step of the block does (R9, R74, R206: an error is a response). -/
inductive Fault where
  /-- Raised by the host-side call Sys2Proof.Machine.hash alone, when its length is negative or exceeds its buffer
  (R211: "must fault. It must neither read beyond the buffer nor return a digest"; I1). Safe: no digest is claimed. -/
  | invalidLength
  deriving DecidableEq, Repr

/-- Why the model gives no meaning. No step of the block answers one. -/
inductive Refusal where
  /-- The instruction of this mnemonic has no meaning yet: no arm of exec answers it in this model. Safe. -/
  | notModelled (mnemonic : String)
  /-- Raised by Sys2Proof.Machine.multiplyVia alone, for a lazy multiplication cache that several engines share without
  serialising its accesses (R210, I2: "refuses such an implementation rather than giving the race a value"). Safe. -/
  | unsynchronisedSharedCache
  deriving DecidableEq, Repr

/-- E right after reset (R43, R230): S = 18 × 0x00, PHASE = IDLE, SQCNT = 0, ERR = 0. -/
def Engine.reset : Engine :=
  { S := Vector.replicate 18 0x00, phase := .idle, sqcnt := 0, err := none }

/-- The machine right after reset, before the host has acted: E at its reset values (R43), no act pending and no
response returned (R230, R234). -/
def State.reset : State := { engine := Engine.reset, pending := [], responses := [] }

end Sys2Proof.Machine
end

