-- ==== Sys2Proof/Machine/Flags.lean ====
section
/-! DEFINITION. The codes of PHASE and ERR, the STATUS view (R26, R28, R29) and the ERR latch's rule (R203).  The block
has no flags besides these (R41). -/

namespace Sys2Proof.Machine

/-- PHASE as its 2-bit code: 0 IDLE, 1 ABSORB, 2 SQUEEZE, 3 DONE (R26). -/
def Phase.code : Phase → BitVec 2
  | .idle => 0
  | .absorb => 1
  | .squeeze => 2
  | .done => 3

/-- An error's 2-bit code: 1 ILLEGAL, 2 SEQUENCE, 3 RANGE (R77, R200). -/
def ErrCode.code : ErrCode → BitVec 2
  | .illegal => 1
  | .sequence => 2
  | .range => 3

/-- ERR as its 2-bit code, 0 for no error (R28). -/
def errBits : Option ErrCode → BitVec 2
  | none => 0
  | some c => c.code

/-- ERR after a command fails with c: the first error since reset or INIT is kept (R203). -/
def latchError (err : Option ErrCode) (c : ErrCode) : Option ErrCode :=
  match err with
  | none => some c
  | some first => some first

/-- STATUS = zext_16({ERR[1:0], SQCNT[3:0], PHASE[1:0]}) (R29). -/
def status (E : Engine) : BitVec 16 := 0#8 ++ (errBits E.err ++ E.sqcnt ++ E.phase.code)

end Sys2Proof.Machine
end

