-- ==== Sys2Proof/WellFormed.lean ====
section
/-! DEFINITION. Which assembler lines are well formed (R81).  A term of Instr needs no check: its operands' types are
the widths R75 gives them, so each one spells a command. -/

namespace Sys2Proof

/-- The operand's value; a quoted character must be ASCII (R81: "a quoted ASCII character for a byte"). -/
def AsmOperand.value : AsmOperand → Option Nat
  | .num n => some n
  | .ascii c => if c.toNat < 128 then some c.toNat else none

/-- Each operand's upper bound, in order: a whole byte, or 0xF for GFMUL's (R75, R81: "An assembler given a GFMUL
operand above 0xF rejects it rather than dropping the high nibble"). -/
def Mnemonic.operandBounds : Mnemonic → List Nat
  | .init => []
  | .absorb => [0xFF, 0xFF]
  | .pad0 => []
  | .pad1 => [0xFF]
  | .squeeze => []
  | .permute => []
  | .gfmul => [0xF, 0xF]
  | .rdstate => [0xFF]
  | .wrstate => [0xFF, 0xFF]
  | .rdstatus => []

/-- The operands are as many as the bounds, and each has a value within its bound. Two points R81 leaves open are DESIGN
CHOICE, log entry 9: a byte operand above 0xFF is rejected, and an operand of any kind may be quoted, GFMUL's 4-bit ones
too, if the character's code is within the bound. -/
def operandsWithin : List Nat → List AsmOperand → Bool
  | [], [] => true
  | b :: bs, o :: os => (match o.value with | some n => n ≤ b | none => false) && operandsWithin bs os
  | [], _ :: _ => false
  | _ :: _, [] => false

/-- A line is well formed when its mnemonic gets the operands R81 gives it; HASH takes any byte string (R82). -/
def AsmLine.wellFormed : AsmLine → Bool
  | .command m operands => operandsWithin m.operandBounds operands
  | .hash _ => true

end Sys2Proof
end

