-- ==== Sys2Proof/Decode.lean ====
section
/-! DEFINITION. The command format C (R70), the total decoder (R79), the encoder, the opcode table's match and mask
rows, and the little-endian transfer of a word as four bytes (R55). -/

namespace Sys2Proof

/-! ### The fields of a command word (R70) -/

/-- OP = w[3:0] (R70). -/
def op (w : Word) : Nibble := w.extractLsb' 0 4

/-- RSV0 = w[7:4] (R70). -/
def rsv0 (w : Word) : Nibble := w.extractLsb' 4 4

/-- D0 = w[15:8] (R70). -/
def d0 (w : Word) : Byte := w.extractLsb' 8 8

/-- D1 = w[23:16] (R70). -/
def d1 (w : Word) : Byte := w.extractLsb' 16 8

/-- RSV1 = w[31:24] (R70). -/
def rsv1 (w : Word) : Byte := w.extractLsb' 24 8

/-- The low nibble of a data byte: GFMUL's operand (R75, R104). -/
def lowNibble (b : Byte) : Nibble := b.extractLsb' 0 4

/-! ### Decoding -/

/-- Why a word spells no command (R201). All of them answer the one code ILLEGAL; the names follow the two levels of
R205's priority order. -/
inductive IllegalCause where
  /-- RSV0 ≠ 0 or RSV1 ≠ 0 (R72). -/
  | reservedBits
  /-- OP in 0xA..0xF (R74). -/
  | unassignedOpcode
  /-- A data field marked "must be 0" in R71 is nonzero (R73). -/
  | mustBeZero
  deriving DecidableEq, Repr

/-- A command that takes no operand: D0 and D1 must be 0 (R71, R73). -/
def noOperand (w : Word) (i : Instr) : Except IllegalCause Instr :=
  if d0 w = 0 ∧ d1 w = 0 then .ok i else .error .mustBeZero

/-- A command whose one operand is D0: D1 must be 0 (R71, R73). -/
def oneOperand (w : Word) (i : Byte → Instr) : Except IllegalCause Instr :=
  if d1 w = 0 then .ok (i (d0 w)) else .error .mustBeZero

/-- decode of R79, total on all 2^32 words. An error is R79's ILLEGAL_WORD, with its cause. -/
def decode (w : Word) : Except IllegalCause Instr :=
  if rsv0 w ≠ 0 ∨ rsv1 w ≠ 0 then .error .reservedBits
  else match (op w).toNat with
    | 0x0 => noOperand w .init
    | 0x1 => .ok (.absorb (d0 w) (d1 w))
    | 0x2 => noOperand w .pad0
    | 0x3 => oneOperand w .pad1
    | 0x4 => noOperand w .squeeze
    | 0x5 => noOperand w .permute
    | 0x6 => .ok (.gfmul (lowNibble (d0 w)) (lowNibble (d1 w)))
    | 0x7 => oneOperand w .rdstate
    | 0x8 => .ok (.wrstate (d0 w) (d1 w))
    | 0x9 => noOperand w .rdstatus
    | _ => .error .unassignedOpcode

/-! ### Encoding -/

/-- Format C with both reserved fields 0: the fields from bit 31 down (R70, R81). -/
def formatC (o : Nibble) (b0 b1 : Byte) : Word := 0#8 ++ b1 ++ b0 ++ 0#4 ++ o

/-- A GFMUL operand in its data byte, the ignored high nibble 0 (R81). -/
def nibbleByte (n : Nibble) : Byte := 0#4 ++ n

/-- The word an assembler writes for a command: R71's opcode, the operands where R75 reads them, all other fields 0
(R81). -/
def encode : Instr → Word
  | .init => formatC 0x0 0 0
  | .absorb b0 b1 => formatC 0x1 b0 b1
  | .pad0 => formatC 0x2 0 0
  | .pad1 b => formatC 0x3 b 0
  | .squeeze => formatC 0x4 0 0
  | .permute => formatC 0x5 0 0
  | .gfmul a b => formatC 0x6 (nibbleByte a) (nibbleByte b)
  | .rdstate k => formatC 0x7 k 0
  | .wrstate k v => formatC 0x8 k v
  | .rdstatus => formatC 0x9 0 0

/-! ### The transfer of a word as four bytes (R55) -/

/-- Transfer byte j is bits [8j+7 : 8j] (R55: little-endian). -/
def transferBytes (w : Word) : List Byte :=
  [w.extractLsb' 0 8, w.extractLsb' 8 8, w.extractLsb' 16 8, w.extractLsb' 24 8]

/-- The word whose transfer bytes are t0, t1, t2, t3 in order (R55). -/
def wordOfTransfer (t0 t1 t2 t3 : Byte) : Word := t3 ++ t2 ++ t1 ++ t0

/-- Decode the next word of a byte transfer and give the rest. Every command is exactly one word (R80); fewer than four
bytes are no word yet, and nothing is decoded. -/
def decodeBytes : List Byte → Option (Except IllegalCause Instr × List Byte)
  | t0 :: t1 :: t2 :: t3 :: rest => some (decode (wordOfTransfer t0 t1 t2 t3), rest)
  | _ => none

/-- The word whose bits are the lowest nbits bits of w, every bit above them 0. -/
def tableWord (nbits w : Nat) : Word := BitVec.ofNat 32 (w % 2 ^ nbits)

/-- What this decoder reads from a table word: its four transfer bytes are decoded. -/
def decodeTableWord (nbits w : Nat) : Option Instr :=
  match decodeBytes (transferBytes (tableWord nbits w)) with
  | some (.ok i, _) => some i
  | _ => none

/-! ### The opcode table (R79: "The match and mask of every row of opcode_table.json are this function written out per
command") -/

/-- A row of the opcode table: the words w with w AND mask = value spell the command. -/
structure OpcodeRow where
  mnemonic : Mnemonic
  value : Word
  mask : Word
  deriving DecidableEq, Repr

/-- The ten rows, in the table's order (R71, and the "match ..., mask ..." of each command's rule). -/
def opcodeTable : List OpcodeRow :=
  [ { mnemonic := .init, value := 0x00000000, mask := 0xFFFFFFFF },
    { mnemonic := .absorb, value := 0x00000001, mask := 0xFF0000FF },
    { mnemonic := .pad0, value := 0x00000002, mask := 0xFFFFFFFF },
    { mnemonic := .pad1, value := 0x00000003, mask := 0xFFFF00FF },
    { mnemonic := .squeeze, value := 0x00000004, mask := 0xFFFFFFFF },
    { mnemonic := .permute, value := 0x00000005, mask := 0xFFFFFFFF },
    { mnemonic := .gfmul, value := 0x00000006, mask := 0xFF0000FF },
    { mnemonic := .rdstate, value := 0x00000007, mask := 0xFFFF00FF },
    { mnemonic := .wrstate, value := 0x00000008, mask := 0xFF0000FF },
    { mnemonic := .rdstatus, value := 0x00000009, mask := 0xFFFFFFFF } ]

/-- The row's words: those that agree with its value under its mask. -/
def OpcodeRow.spells (r : OpcodeRow) (w : Word) : Prop := w &&& r.mask = r.value

/-- The mnemonic of a command (R71). -/
def mnemonicOf : Instr → Mnemonic
  | .init => .init
  | .absorb _ _ => .absorb
  | .pad0 => .pad0
  | .pad1 _ => .pad1
  | .squeeze => .squeeze
  | .permute => .permute
  | .gfmul _ _ => .gfmul
  | .rdstate _ => .rdstate
  | .wrstate _ _ => .wrstate
  | .rdstatus => .rdstatus

end Sys2Proof
end

