-- ==== Sys2Proof/Machine/Operands.lean ====
section
/-! DEFINITION. How a command's operands name state: the state byte index (R50, R180, R181), the nibbles of a byte
and the grid's cells (R22, R24).  The fields a command word carries are read in Sys2Proof/Decode.lean (R75). -/

namespace Sys2Proof.Machine

/-! ### Nibbles of a byte (R7) -/

/-- hi(b) = b[7:4] (R7). -/
def hi (b : Byte) : Nibble := b.extractLsb' 4 4

/-- lo(b) = b[3:0] (R7). -/
def lo (b : Byte) : Nibble := b.extractLsb' 0 4

/-- {h, l}: the byte with high nibble h and low nibble l (R7). -/
def pack (h l : Nibble) : Byte := h ++ l

/-! ### Bytes and cells of S -/

/-- The index D0 of RDSTATE and WRSTATE: 0 to 17 are mapped, 18 to 255 are not (R50, R204). -/
def stateIndex (k : Byte) : Option (Fin 18) :=
  if h : k.toNat < 18 then some ⟨k.toNat, h⟩ else none

/-- The byte that holds cell (r, c): k = (c + 6*r) / 2 (R22). -/
def cellByte (r c : Fin 6) : Fin 18 := ⟨(c.val + 6 * r.val) / 2, by omega⟩

/-- Byte j of row r is S[3r + j] (R24). -/
def rowByte (r : Fin 6) (j : Fin 3) : Fin 18 := ⟨3 * r.val + j.val, by omega⟩

/-- S[k] (R8). -/
def getByte (S : Grid) (k : Fin 18) : Byte := S.get k

/-- S[k] <- v (R8). -/
def setByte (S : Grid) (k : Fin 18) (v : Byte) : Grid := S.set k.val v k.isLt

/-- cell(S, r, c): the high nibble of its byte when c is even, the low nibble when c is odd (R22). -/
def cell (S : Grid) (r c : Fin 6) : Nibble :=
  if c.val % 2 = 0 then hi (getByte S (cellByte r c)) else lo (getByte S (cellByte r c))

/-- setcell(S, r, c, v): writes that cell and leaves the other nibble of its byte unchanged (R8, R22). -/
def setCell (S : Grid) (r c : Fin 6) (v : Nibble) : Grid :=
  if c.val % 2 = 0 then setByte S (cellByte r c) (pack v (lo (getByte S (cellByte r c))))
  else setByte S (cellByte r c) (pack (hi (getByte S (cellByte r c))) v)

end Sys2Proof.Machine
end

