-- ==== Sys2Proof/Machine/Ops.lean ====
section
/-! DEFINITION. The operations every command is made of: the response words (R76), a command that completes, a command
that fails (R9, R203: the block's one error entry; R207 and R208 give it no return), the phase check (R202), XOR into a
state byte, and reset (R230). -/

namespace Sys2Proof.Machine

/-- What a meaning answers. -/
abbrev Result := Host.Outcome State Fault Refusal

/-! ### Responses (R76) -/

/-- {R1, R0, 0b000000, CODE} with bits [31:24] 0 (R76). -/
def responseWord (code : BitVec 2) (r0 r1 : Byte) : Word := 0#8 ++ r1 ++ r0 ++ 0#6 ++ code

/-- CODE = 0: the command completed; its result bytes are r0 and r1 (R77, R78). -/
def okResponse (r0 r1 : Byte) : Word := responseWord 0 r0 r1

/-- CODE = c and R0 = R1 = 0: the command failed (R76, R203). -/
def errorResponse (c : ErrCode) : Word := responseWord c.code 0 0

/-- CODE = resp[1:0] (R76). -/
def responseCode (w : Word) : BitVec 2 := w.extractLsb' 0 2

/-- R0 = resp[15:8] (R76). -/
def resultByte0 (w : Word) : Byte := w.extractLsb' 8 8

/-- R1 = resp[23:16] (R76). -/
def resultByte1 (w : Word) : Byte := w.extractLsb' 16 8

/-- Return a response to the host (R61: one per command, in order). -/
def respond (w : Word) (s : State) : State := { s with responses := s.responses ++ [w] }

/-! ### Completing and failing -/

/-- The command completes: E becomes E', and the response is OK with result bytes r0 and r1 (R206). -/
def complete (E' : Engine) (r0 r1 : Byte) (s : State) : Result :=
  .next (respond (okResponse r0 r1) { s with engine := E' })

/-- raise Error(c) (R9): no state is written except ERR, which keeps the first code, and the response carries c (R203).
No control is transferred: the block accepts the next command in the same phase (R207). -/
def raiseError (c : ErrCode) (s : State) : Result :=
  .next (respond (errorResponse c) { s with engine := { s.engine with err := latchError s.engine.err c } })

/-- A sponge command's check (R202): outside the phase p it fails with SEQUENCE, before any state is written (R206). -/
def whenPhase (p : Phase) (s : State) (run : Engine → Result) : Result :=
  if s.engine.phase = p then run s.engine else raiseError .sequence s

/-- A state access's check (R204): an unmapped index fails with RANGE. -/
def whenMapped (k : Byte) (s : State) (run : Fin 18 → Result) : Result :=
  match stateIndex k with
  | some j => run j
  | none => raiseError .range s

/-! ### State bytes -/

/-- S[k] <- S[k] XOR v (R151 to R153). -/
def xorByte (S : Grid) (k : Fin 18) (v : Byte) : Grid := setByte S k (getByte S k ^^^ v)

/-- IV (R37): bytes 0 to 14 are 0x00, then 0x20, 0x10, 0x10. -/
def iv : Grid := #v[0, 0, 0, 0, 0, 0, 0, 0, 0, 0, 0, 0, 0, 0, 0, 0x20, 0x10, 0x10]

/-- PAD_BYTE (R5): a single one-bit, then zeros (R159). -/
def padByte : Byte := 0x80

/-! ### Reset -/

/-- reset(E) (R10, R230): every field of E takes its reset value and no response is produced. -/
def resetEngine (s : State) : State := { s with engine := Engine.reset }

end Sys2Proof.Machine
end

