-- ==== Sys2Proof/Machine/Debug.lean ====
section
/-! DEFINITION. The state and status accesses RDSTATE, WRSTATE and RDSTATUS (spec 43_debug_access.md), legal in every
phase (R183). -/

namespace Sys2Proof.Machine

/-- RDSTATE k (R180): R0 = S[k]; RANGE if k ≥ 18. -/
def execRdstate (k : Byte) (s : State) : Result :=
  whenMapped k s fun j => complete s.engine (getByte s.engine.S j) 0x00 s

/-- WRSTATE k, v (R181): S[k] <- v; RANGE if k ≥ 18, and S is then unchanged. -/
def execWrstate (k v : Byte) (s : State) : Result :=
  whenMapped k s fun j => complete { s.engine with S := setByte s.engine.S j v } 0x00 0x00 s

/-- RDSTATUS (R182): R0 = STATUS[7:0], R1 = STATUS[15:8]; reading STATUS does not clear ERR. -/
def execRdstatus (s : State) : Result :=
  complete s.engine ((status s.engine).extractLsb' 0 8) ((status s.engine).extractLsb' 8 8) s

end Sys2Proof.Machine
end

