-- ==== Sys2Proof/Config.lean ====
section
/-! DEFINITION. What the spec leaves open and fixes for the life of one block: the five constant tables (R6, R32 to
R36, R44) and the three interface parameters (R59, R244).  None of them has a value here: each is an opaque constant,
so a statement about the machine holds for every choice of the tables.  The candidate values of spec
93_implementation_defined.md are a separate named value, Sys2Proof.Machine.candidate, which the machine never reads. -/

namespace Sys2Proof

/-- The constant tables a block is built with (R6): the configuration argument of every function that reads one. -/
structure Params where
  /-- SBOX, "a fixed bijection on 4-bit values" (R32): the type carries the bijection. -/
  sbox : Equiv.Perm Nibble
  /-- MIX[i][j], i the output row and j the input row (R33); no symmetry is imposed (90_conflicts.md C1). -/
  mix : Vector (Vector Nibble 6) 6
  /-- RC[r], one 4-bit round constant per round (R34). -/
  rc : Vector Nibble 12
  /-- IC[i], one 4-bit internal constant per grid row (R35). -/
  ic : Vector Nibble 6
  /-- RED, bit k the coefficient of x^k in the reduction polynomial x^4 + p(x) (R36). -/
  red : Nibble

namespace Config

/-- SBOX of this block: open (R32, 92_eei_decisions.md D10). Log entry 1. -/
opaque sbox : Equiv.Perm Nibble

/-- MIX of this block: open (R33, D10, D12). Log entry 1. -/
opaque mix : Vector (Vector Nibble 6) 6

/-- RC of this block: open (R34, D10). Log entry 1. -/
opaque rc : Vector Nibble 12

/-- IC of this block: open (R35, D10). Log entry 1. -/
opaque ic : Vector Nibble 6

/-- RED of this block: open (R36, D10). Log entry 1. -/
opaque red : Nibble

/-- The tables of this block, together (R44: fixed for the life of the hardware). -/
def params : Params := { sbox := sbox, mix := mix, rc := rc, ic := ic, red := red }

/-- CMD_PORT_BASE, the command port's place in a host's address space: open; no rule reads it (R59). Log entry 8. -/
opaque cmdPortBase : Nat

/-- LAT_PERM, cycles for one application of P: open (R244). It "may depend on operands and on history" (R245), so it
takes E as the command finds it (S is P's operand), the command word, and every act of the host that the block has taken
since power-up, oldest first. Log entry 8. -/
opaque latPerm : Machine.Engine → Word → List Machine.HostEvent → Nat

/-- LAT_CMD, cycles for every other command: open (R244), with the same arguments as LAT_PERM (R245). Log entry 8. -/
opaque latCmd : Machine.Engine → Word → List Machine.HostEvent → Nat

/-- How far the lazy cache's sentinel lies above 16: open (R39: "any value above 15 serves"; I3). Log entry 7. -/
opaque sentinelAbove : Nat

end Config

end Sys2Proof
end

