-- ==== Sys2Proof/Machine/Gf.lean ====
section
/-! DEFINITION. The GF(2^4) multiplier (spec 40_gf_multiplier.md): doubling, the product, the document's
double-and-add procedure, the eager table MT, and the command GFMUL.  Every function takes RED as an argument (R36). -/

namespace Sys2Proof.Machine

/-- xtime(v) (R100): a left shift within 4 bits, and an XOR with RED if bit 3 was 1. -/
def xtime (red v : Nibble) : Nibble := (v <<< 1) ^^^ (if v.getLsbD 3 then red else 0)

/-- One turn of R101's loop for bit k of b: (acc, v) becomes (acc XOR v if b[k] = 1, xtime(v)). -/
def gfmulTurn (red b : Nibble) (accV : Nibble × Nibble) (k : Nat) : Nibble × Nibble :=
  (if b.getLsbD k then accV.1 ^^^ accV.2 else accV.1, xtime red accV.2)

/-- gfmul(a, b) (R101): for k in 0..3 in order, from acc = 0 and v = a. -/
def gfmul (red a b : Nibble) : Nibble := ([0, 1, 2, 3].foldl (gfmulTurn red b) (0, a)).1

/-- The loop of R102 "while b > 1", which halves b, so that 4 turns are enough for a 4-bit b: the result is
acc XOR run once b is 1. -/
def mulDocLoop (red : Nibble) : Nat → Nibble → Nibble → Nibble → Nibble
  | 0, run, acc, _ => acc ^^^ run
  | fuel + 1, run, acc, b =>
    if 1 < b.toNat then mulDocLoop red fuel (xtime red run) (if b.getLsbD 0 then acc ^^^ run else acc) (b >>> 1)
    else acc ^^^ run

/-- mul_doc(a, b), the document's double-and-add procedure (R102), its last XOR unconditional (90_conflicts.md C3). -/
def mulDoc (red : Nibble) (a b : Nibble) : Nibble :=
  let (a, b) := if a.toNat < b.toNat then (b, a) else (a, b)
  if b = 0 then 0 else if b = 1 then a else mulDocLoop red 4 a 0 b

/-- The place of the operand pair (a, b) in a 256-entry table: row a, column b (R38). -/
def pairIndex (a b : Nibble) : Fin 256 := ⟨16 * a.toNat + b.toNat, by omega⟩

/-- MT (R38): the 256-entry read-only table, every entry filled with its product. -/
def multTable (red : Nibble) : Vector Nibble 256 :=
  Vector.ofFn fun i : Fin 256 => gfmul red (BitVec.ofNat 4 (i.val / 16)) (BitVec.ofNat 4 (i.val % 16))

/-- MT[a][b] (R38). -/
def lookup (table : Vector Nibble 256) (a b : Nibble) : Nibble := table.get (pairIndex a b)

/-- GFMUL a, b (R107): R0 = zext_8(gfmul(a, b)), R1 = 0; no state is written. -/
def execGfmul (a b : Nibble) (s : State) : Result :=
  complete s.engine ((gfmul Config.red a b).setWidth 8) 0x00 s

end Sys2Proof.Machine
end

