-- ==== Sys2Proof/Machine/Permutation.lean ====
section
/-! DEFINITION. The four sub-transforms, the round and the permutation P (spec 41_permutation.md), each a function of
the block's constant tables, and the command PERMUTE. -/

namespace Sys2Proof.Machine

/-- 0..5, in order: the rows, and the columns, of the grid (R22). -/
def six : List (Fin 6) := [0, 1, 2, 3, 4, 5]

/-- 0..11, in order: the round indexes (R125). -/
def roundIndexes : List (Fin 12) := [0, 1, 2, 3, 4, 5, 6, 7, 8, 9, 10, 11]

/-- AddConstants(S, r) (R120): for each row i, XOR (RC[r] XOR IC[i]) << 4 into S[3i], the byte whose high nibble is
cell (i, 0). -/
def addConstants (c : Params) (S : Grid) (r : Fin 12) : Grid :=
  six.foldl (fun S i => xorByte S (rowByte i 0) (pack (c.rc.get r ^^^ c.ic.get i) 0)) S

/-- Both nibbles of a byte through SBOX (R121, R240). -/
def subByte (c : Params) (b : Byte) : Byte := pack (c.sbox (hi b)) (c.sbox (lo b))

/-- SubCells(S) (R121): every nibble of every state byte, low and high independently. -/
def subCells (c : Params) (S : Grid) : Grid := Vector.ofFn fun k : Fin 18 => subByte c (getByte S k)

/-- The 24-bit row word {S[3r], S[3r+1], S[3r+2]} (R24). -/
def rowWord (S : Grid) (r : Fin 6) : BitVec 24 :=
  getByte S (rowByte r 0) ++ getByte S (rowByte r 1) ++ getByte S (rowByte r 2)

/-- Write row r from its 24-bit word (R122). -/
def setRow (S : Grid) (r : Fin 6) (w : BitVec 24) : Grid :=
  setByte (setByte (setByte S (rowByte r 0) (w.extractLsb' 16 8)) (rowByte r 1) (w.extractLsb' 8 8))
    (rowByte r 2) (w.extractLsb' 0 8)

/-- rotl24(w, k) = ((w << k) | (w >> (24 - k)))[23:0] for 0 < k < 24, and w for k = 0 (R8). -/
def rotl24 (w : BitVec 24) (k : Nat) : BitVec 24 := if k = 0 then w else (w <<< k) ||| (w >>> (24 - k))

/-- ShiftRows(S) (R122): row i is rotated left by i cells, 4i bits, within its 24 bits (R238). -/
def shiftRows (S : Grid) : Grid := six.foldl (fun S i => setRow S i (rotl24 (rowWord S i) (4 * i.val))) S

/-- The temporary column buffer (R40, R123): the six cells of column j, read before any is written (R237). -/
def column (S : Grid) (j : Fin 6) : Vector Nibble 6 := Vector.ofFn fun i : Fin 6 => cell S i j

/-- MIX applied to an old column: new[i] is the XOR over j of gfmul(MIX[i][j], old[j]), from 0 (R123). -/
def mixColumn (c : Params) (old : Vector Nibble 6) : Vector Nibble 6 :=
  Vector.ofFn fun i : Fin 6 =>
    six.foldl (fun acc j => acc ^^^ gfmul c.red ((c.mix.get i).get j) (old.get j)) 0

/-- Write the six cells of column j (R123). -/
def setColumn (S : Grid) (j : Fin 6) (new : Vector Nibble 6) : Grid :=
  six.foldl (fun S i => setCell S i j (new.get i)) S

/-- MixColumnsSerial(S) (R123), column by column; row i of MIX gives output row i (R33). -/
def mixColumnsSerial (c : Params) (S : Grid) : Grid :=
  six.foldl (fun S j => setColumn S j (mixColumn c (column S j))) S

/-- Round(S, r) (R124): AddConstants, SubCells, ShiftRows, MixColumnsSerial, in this order. -/
def photonRound (c : Params) (S : Grid) (r : Fin 12) : Grid :=
  mixColumnsSerial c (shiftRows (subCells c (addConstants c S r)))

/-- P(S) (R125): exactly 12 rounds, the round index 0 to 11 in increasing order. -/
def permutation (c : Params) (S : Grid) : Grid := roundIndexes.foldl (photonRound c) S

/-- P with the tables of this block (R44). Irreducible, so that no proof about a command evaluates its twelve rounds. -/
@[irreducible] def P (S : Grid) : Grid := permutation Config.params S

/-- PERMUTE (R129): S <- P(S), in every phase; PHASE, SQCNT and ERR are unchanged. -/
def execPermute (s : State) : Result :=
  complete { s.engine with S := P s.engine.S } 0x00 0x00 s

end Sys2Proof.Machine
end

