-- ==== Sys2Proof/Machine/Sponge.lean ====
section
/-! DEFINITION. The sponge commands INIT, ABSORB, PAD0, PAD1 and SQUEEZE (spec 42_sponge.md, section 1). -/

namespace Sys2Proof.Machine

/-- S[0] <- S[0] XOR b0, S[1] <- S[1] XOR b1, then S <- P(S) (R151 to R153, R53). -/
def absorbPair (S : Grid) (b0 b1 : Byte) : Grid := P (xorByte (xorByte S 0 b0) 1 b1)

/-- INIT (R150): S is IV, PHASE is ABSORB, SQCNT and ERR are 0; legal in every phase. -/
def execInit (s : State) : Result :=
  complete { S := iv, phase := .absorb, sqcnt := 0, err := none } 0x00 0x00 s

/-- ABSORB b0, b1 (R151). -/
def execAbsorb (b0 b1 : Byte) (s : State) : Result :=
  whenPhase .absorb s fun E => complete { E with S := absorbPair E.S b0 b1 } 0x00 0x00 s

/-- PAD0 (R152): XOR 0x80 into S[0], S[1] unchanged, then P; PHASE is SQUEEZE and SQCNT is 0. -/
def execPad0 (s : State) : Result :=
  whenPhase .absorb s fun E =>
    complete { E with S := P (xorByte E.S 0 padByte), phase := .squeeze, sqcnt := 0 } 0x00 0x00 s

/-- PAD1 b (R153): XOR b into S[0] and 0x80 into S[1], then P; PHASE is SQUEEZE and SQCNT is 0. The padding is literal
(R159). -/
def execPad1 (b : Byte) (s : State) : Result :=
  whenPhase .absorb s fun E =>
    complete { E with S := absorbPair E.S b padByte, phase := .squeeze, sqcnt := 0 } 0x00 0x00 s

/-- S when a SQUEEZE emits its pair: permuted only if SQCNT > 0 (R154, R242). -/
def squeezeState (E : Engine) : Grid := if 0 < E.sqcnt.toNat then P E.S else E.S

/-- SQUEEZE (R154): emits S[0] and S[1], adds 1 to SQCNT, and the 8th sets PHASE to DONE. -/
def execSqueeze (s : State) : Result :=
  whenPhase .squeeze s fun E =>
    complete { E with
        S := squeezeState E
        sqcnt := E.sqcnt + 1
        phase := if E.sqcnt + 1 = 8 then .done else E.phase }
      (getByte (squeezeState E) 0) (getByte (squeezeState E) 1) s

end Sys2Proof.Machine
end

