-- ==== Sys2Proof/Machine/Dispatch.lean ====
section
/-! DEFINITION. The one dispatch: an arm per constructor of Instr, each one call of the instruction's meaning. -/

namespace Sys2Proof.Machine

def exec (i : Instr) (s : State) : Host.Outcome State Fault Refusal :=
  match i with
  | .init => Sys2Proof.Machine.execInit s
  | .absorb b0 b1 => Sys2Proof.Machine.execAbsorb b0 b1 s
  | .pad0 => Sys2Proof.Machine.execPad0 s
  | .pad1 b => Sys2Proof.Machine.execPad1 b s
  | .squeeze => Sys2Proof.Machine.execSqueeze s
  | .permute => Sys2Proof.Machine.execPermute s
  | .gfmul a b => Sys2Proof.Machine.execGfmul a b s
  | .rdstate k => Sys2Proof.Machine.execRdstate k s
  | .wrstate k v => Sys2Proof.Machine.execWrstate k v s
  | .rdstatus => Sys2Proof.Machine.execRdstatus s

end Sys2Proof.Machine
end

