-- ==== Sys2Proof/Machine/Port.lean ====
section
/-! DEFINITION. The command port (R236): what the block does with a command word and with each act of the host.  The
block fetches nothing (R30, R64): its next instruction is the next word the host writes (R234). -/

namespace Sys2Proof.Machine

/-- Execute the command a word spells, or raise ILLEGAL if it spells none (R79, R201). -/
def execWord (w : Word) (s : State) : Result :=
  match decode w with
  | .ok i => exec i s
  | .error _ => raiseError .illegal s

/-- Take one act of the host: a command (R236), a reset (R230), or a command cut short by a reset, which has no effect
and gets no response (R235). -/
def takeEvent (e : HostEvent) (s : State) : Result :=
  match e with
  | .command w => execWord w s
  | .reset => .next (resetEngine s)
  | .commandCutByReset _ => .next (resetEngine s)

/-- With nothing to do the block is idle and keeps all of E (R217); no command runs on its own (R234). -/
def idle (s : State) : Result := .next s

/-- The state in which the word is the next thing the host writes: it is put before everything pending. -/
def writeNext (w : Word) (s : State) : State := { s with pending := .command w :: s.pending }

end Sys2Proof.Machine
end

