-- ==== Sys2Proof/Machine/Step.lean ====
section
/-! DEFINITION. One step of the machine (R10): the next act of the host takes effect, whole (R58, R61). -/

namespace Sys2Proof.Machine

/-- Take the host's next act; with none pending, stay as you are. -/
def step (s : State) : Host.Outcome State Fault Refusal :=
  match s.pending with
  | [] => idle s
  | e :: rest => takeEvent e { s with pending := rest }

/-- s with the instruction of this table word as the host's next command. The lowest nbits bits of w are the word,
every bit above them 0. -/
def State.withFetchWord (s : State) (nbits w : Nat) : State := writeNext (tableWord nbits w) s

/-- k steps from s, stopping at the first fault or refusal. -/
def run : Nat → State → Host.Outcome State Fault Refusal
  | 0, s => .next s
  | k + 1, s =>
    match step s with
    | .next t => run k t
    | .fault r => .fault r
    | .refused r => .refused r

end Sys2Proof.Machine
end

