-- ==== Sys2Proof/Machine/Hash.lean ====
section
/-! DEFINITION. The function PHOTON128 (R155), the pseudo-instruction HASH (R82, R156) and the host-side call that runs
it with its length precondition (R158, R211). -/

namespace Sys2Proof.Machine

/-! ### The function (R155) -/

/-- Steps 2 to 4 of PHOTON128: absorb each whole block, then the padded tail (R155, R12). -/
def absorbMessage (c : Params) : Grid → List Byte → Grid
  | S, m0 :: m1 :: rest => absorbMessage c (permutation c (xorByte (xorByte S 0 m0) 1 m1)) rest
  | S, [b] => permutation c (xorByte (xorByte S 0 b) 1 padByte)
  | S, [] => permutation c (xorByte S 0 padByte)

/-- The digest bytes a state gives: S[0], then S[1] (R54). -/
def digestPair (S : Grid) : List Byte := [getByte S 0, getByte S 1]

/-- The remaining pairs of step 5: each after one more permutation (R155, R242). -/
def laterPairs (c : Params) : Nat → Grid → List Byte
  | 0, _ => []
  | j + 1, S => digestPair (permutation c S) ++ laterPairs c j (permutation c S)

/-- PHOTON128(m), the 16-byte digest (R155): one pair at once, then 7 pairs each after a permutation. -/
def photon128 (c : Params) (m : List Byte) : List Byte :=
  digestPair (absorbMessage c iv m) ++ laterPairs c 7 (absorbMessage c iv m)

/-! ### The command sequence (R156) -/

/-- ABSORB for each whole block, then PAD1 with the odd byte, or PAD0 (R156). -/
def messageCommands : List Byte → List Instr
  | m0 :: m1 :: rest => .absorb m0 m1 :: messageCommands rest
  | [b] => [.pad1 b]
  | [] => [.pad0]

/-- HASH m (R82, R156): INIT, the message, and eight SQUEEZEs. -/
def hashCommands (m : List Byte) : List Instr := .init :: (messageCommands m ++ List.replicate 8 .squeeze)

/-- The host writes these commands next, in order. -/
def writeCommands (cs : List Instr) (s : State) : State :=
  { s with pending := cs.map (fun i => .command (encode i)) ++ s.pending }

/-- The digest as the host assembles it: R0 then R1 of each SQUEEZE response, in order (R156, R158). -/
def assembleDigest (responses : List Word) : List Byte := responses.flatMap fun w => [resultByte0 w, resultByte1 w]

/-- hash(message, length) as the host runs it: HASH on the first n bytes of the buffer. A negative length, or one
beyond the buffer, faults, and nothing is read or run (R211, I1). -/
def hash (n : Int) (buffer : List Byte) (s : State) : Result :=
  if n < 0 ∨ (buffer.length : Int) < n then .fault .invalidLength
  else
    let cs := hashCommands (buffer.take n.toNat)
    run cs.length (writeCommands cs s)

end Sys2Proof.Machine
end

