-- ==== Sys2Proof/Machine/Assembler.lean ====
section
/-! DEFINITION. The assembler (R81, R82): the text of a command line, the line it stands for, and the commands an
assembler line assembles to. -/

namespace Sys2Proof.Machine

/-! ### From a line to commands -/

/-- The command of a mnemonic with its operands' values; none if the operands are not as many as R81 gives. -/
def commandOf : Mnemonic → List Nat → Option Instr
  | .init, [] => some .init
  | .absorb, [x, y] => some (.absorb (BitVec.ofNat 8 x) (BitVec.ofNat 8 y))
  | .pad0, [] => some .pad0
  | .pad1, [x] => some (.pad1 (BitVec.ofNat 8 x))
  | .squeeze, [] => some .squeeze
  | .permute, [] => some .permute
  | .gfmul, [x, y] => some (.gfmul (BitVec.ofNat 4 x) (BitVec.ofNat 4 y))
  | .rdstate, [x] => some (.rdstate (BitVec.ofNat 8 x))
  | .wrstate, [x, y] => some (.wrstate (BitVec.ofNat 8 x) (BitVec.ofNat 8 y))
  | .rdstatus, [] => some .rdstatus
  | _, _ => none

/-- The commands a line assembles to; an ill-formed line is rejected (R81). HASH stands for its sequence (R82). -/
def assemble : AsmLine → Option (List Instr)
  | .command m operands =>
    if operandsWithin m.operandBounds operands then
      (commandOf m (operands.filterMap AsmOperand.value)).map fun i => [i]
    else none
  | .hash message => some (hashCommands message)

/-! ### The text of a line (R81). Spaces between tokens are skipped, and hex digits may be of either case: DESIGN
CHOICE, log entry 9. -/

/-- The text of a mnemonic (R71, R81). -/
def mnemonicText : Mnemonic → List Char
  | .init => ['I', 'N', 'I', 'T']
  | .absorb => ['A', 'B', 'S', 'O', 'R', 'B']
  | .pad0 => ['P', 'A', 'D', '0']
  | .pad1 => ['P', 'A', 'D', '1']
  | .squeeze => ['S', 'Q', 'U', 'E', 'E', 'Z', 'E']
  | .permute => ['P', 'E', 'R', 'M', 'U', 'T', 'E']
  | .gfmul => ['G', 'F', 'M', 'U', 'L']
  | .rdstate => ['R', 'D', 'S', 'T', 'A', 'T', 'E']
  | .wrstate => ['W', 'R', 'S', 'T', 'A', 'T', 'E']
  | .rdstatus => ['R', 'D', 'S', 'T', 'A', 'T', 'U', 'S']

/-- The ten mnemonics. -/
def mnemonics : List Mnemonic :=
  [.init, .absorb, .pad0, .pad1, .squeeze, .permute, .gfmul, .rdstate, .wrstate, .rdstatus]

/-- The text without its leading spaces. -/
def skipSpaces : List Char → List Char
  | c :: cs => if c = ' ' then skipSpaces cs else c :: cs
  | [] => []

/-- The text up to the first space, and the rest. -/
def takeWord : List Char → List Char × List Char
  | c :: cs => if c = ' ' then ([], c :: cs) else (c :: (takeWord cs).1, (takeWord cs).2)
  | [] => ([], [])

/-- The value of a digit in the base, if it is one. -/
def digitValue (base : Nat) (c : Char) : Option Nat :=
  let v := if 48 ≤ c.toNat ∧ c.toNat ≤ 57 then some (c.toNat - 48)
    else if 65 ≤ c.toNat ∧ c.toNat ≤ 70 then some (c.toNat - 55)
    else if 97 ≤ c.toNat ∧ c.toNat ≤ 102 then some (c.toNat - 87)
    else none
  v.filter fun n => n < base

/-- The digits at the head of the text, as a number appended to acc, and the rest. -/
def takeDigits (base : Nat) (acc : Nat) : List Char → Nat × List Char
  | c :: cs =>
    match digitValue base c with
    | some v => takeDigits base (base * acc + v) cs
    | none => (acc, c :: cs)
  | [] => (acc, [])

/-- A number: its first digit, which must be there, and those that follow. -/
def parseNumber (base : Nat) : List Char → Option (Nat × List Char)
  | c :: cs => (digitValue base c).map fun v => takeDigits base v cs
  | [] => none

/-- The apostrophe. -/
def quoteMark : Char := Char.ofNat 39

/-- One operand (R81): a quoted character, a hex number after 0x, or a decimal number. -/
def parseOperand (text : List Char) : Option (AsmOperand × List Char) :=
  match text with
  | '0' :: 'x' :: cs => (parseNumber 16 cs).map fun r => (.num r.1, r.2)
  | q :: c :: q' :: cs =>
    if q = quoteMark ∧ q' = quoteMark then some (.ascii c, cs)
    else (parseNumber 10 (q :: c :: q' :: cs)).map fun r => (.num r.1, r.2)
  | cs => (parseNumber 10 cs).map fun r => (.num r.1, r.2)

/-- One or more operands separated by commas, to the end of the text; fuel bounds their number. -/
def parseOperands : Nat → List Char → Option (List AsmOperand)
  | 0, _ => none
  | fuel + 1, text =>
    match parseOperand (skipSpaces text) with
    | none => none
    | some (o, rest) =>
      match skipSpaces rest with
      | [] => some [o]
      | ',' :: more => (parseOperands fuel more).map fun os => o :: os
      | _ => none

/-- A command line: the mnemonic, then its operands, if any (R81). -/
def parseLine (text : List Char) : Option AsmLine :=
  let word := takeWord (skipSpaces text)
  match mnemonics.find? fun m => mnemonicText m = word.1 with
  | none => none
  | some m =>
    match skipSpaces word.2 with
    | [] => some (.command m [])
    | operands => (parseOperands (operands.length + 1) operands).map fun os => .command m os

/-- The command a text line stands for. -/
def assembleText (text : List Char) : Option Instr :=
  match (parseLine text).bind assemble with
  | some [i] => some i
  | _ => none

/-! ### The text of a command -/

/-- A hex digit. -/
def hexDigit (n : Nibble) : Char := if n.toNat < 10 then Char.ofNat (48 + n.toNat) else Char.ofNat (55 + n.toNat)

/-- A byte as 0x and two hex digits. -/
def byteText (b : Byte) : List Char := ['0', 'x', hexDigit (hi b), hexDigit (lo b)]

/-- A nibble as 0x and one hex digit. -/
def nibbleText (n : Nibble) : List Char := ['0', 'x', hexDigit n]

/-- A command as R81 writes it: its mnemonic, then its operands separated by commas. -/
def commandText : Instr → List Char
  | .init => mnemonicText .init
  | .absorb b0 b1 => mnemonicText .absorb ++ [' '] ++ byteText b0 ++ [',', ' '] ++ byteText b1
  | .pad0 => mnemonicText .pad0
  | .pad1 b => mnemonicText .pad1 ++ [' '] ++ byteText b
  | .squeeze => mnemonicText .squeeze
  | .permute => mnemonicText .permute
  | .gfmul a b => mnemonicText .gfmul ++ [' '] ++ nibbleText a ++ [',', ' '] ++ nibbleText b
  | .rdstate k => mnemonicText .rdstate ++ [' '] ++ byteText k
  | .wrstate k v => mnemonicText .wrstate ++ [' '] ++ byteText k ++ [',', ' '] ++ byteText v
  | .rdstatus => mnemonicText .rdstatus

end Sys2Proof.Machine
end

