-- ==== Sys2Proof/Machine/Candidate.lean ====
section
/-! DEFINITION. The candidate constant values of spec 93_implementation_defined.md Part 2, [from general knowledge, not
in source].  No meaning reads them: the machine reads the open tables of Sys2Proof/Config.lean.  A statement that uses
them names them. -/

namespace Sys2Proof.Machine

/-- Entry x of a table of 16 nibbles, 0 beyond it. -/
def nibbleAt (table : List Nibble) (x : Nibble) : Nibble := table.getD x.toNat 0

/-- SBOX[x] for x = 0x0..0xF (93 Part 2). -/
def candidateSboxTable : List Nibble := [0xC, 0x5, 0x6, 0xB, 0x9, 0x0, 0xA, 0xD, 0x3, 0xE, 0xF, 0x8, 0x4, 0x7, 0x1, 0x2]

/-- The inverse of SBOX (93 Part 2). -/
def candidateInverseTable : List Nibble := [0x5, 0xE, 0xF, 0x8, 0xC, 0x1, 0x2, 0xD, 0xB, 0x4, 0x6, 0x3, 0x0, 0x7, 0x9, 0xA]

/-- The candidate SBOX, a bijection (93 Part 2). -/
def candidateSbox : Equiv.Perm Nibble where
  toFun := nibbleAt candidateSboxTable
  invFun := nibbleAt candidateInverseTable
  left_inv := by unfold Function.LeftInverse; decide
  right_inv := by unfold Function.RightInverse Function.LeftInverse; decide

/-- The candidate MIX, MIX[i][j] with row i the output row (93 Part 2). It is not symmetric (90_conflicts.md C1). -/
def candidateMix : Vector (Vector Nibble 6) 6 :=
  #v[#v[0x1, 0x2, 0x8, 0x5, 0x8, 0x2],
     #v[0x2, 0x5, 0x1, 0x2, 0x6, 0xC],
     #v[0xC, 0x9, 0xF, 0x8, 0x8, 0xD],
     #v[0xD, 0x5, 0xB, 0x3, 0xA, 0x1],
     #v[0x1, 0xF, 0xD, 0xE, 0xB, 0x8],
     #v[0x8, 0x2, 0x3, 0x3, 0x2, 0x8]]

/-- The candidate tables SBOX, MIX, RC, IC and RED (93 Part 2). PRESUMED, log entry 1: no source gives them. -/
def candidate : Params where
  sbox := candidateSbox
  mix := candidateMix
  rc := #v[0x1, 0x3, 0x7, 0xE, 0xD, 0xB, 0x6, 0xC, 0x9, 0x2, 0x5, 0xA]
  ic := #v[0x0, 0x1, 0x3, 0x7, 0x6, 0x4]
  red := 0x3

end Sys2Proof.Machine
end

