-- ==== Sys2Proof/Machine/Platform.lean ====
section
/-! DEFINITION. Several engine instances on one platform (R215): each has its own state, they share only the read-only
tables, and the platform says which one acts. -/

namespace Sys2Proof.Machine

/-- n engine instances with their ports (R215). -/
abbrev Platform (n : Nat) := Vector State n

/-- Instance j takes a step; the others keep their state (R66, R215). -/
def stepInstance {n : Nat} (j : Fin n) (p : Platform n) : Host.Outcome (Platform n) Fault Refusal :=
  match step (p.get j) with
  | .next t => .next (p.set j.val t j.isLt)
  | .fault r => .fault r
  | .refused r => .refused r

end Sys2Proof.Machine
end

