-- ==== Sys2Proof/Machine/LazyCache.lean ====
section
/-! DEFINITION. The permitted alternative to the eager table: the reference's lazy multiplication cache (R39, R105),
and the table designs of R241.  The machine's State holds no cache (R39: "A model therefore need not hold the cache at
all"); this file is what the claim that it cannot be observed is about. -/

namespace Sys2Proof.Machine

/-- The lazy cache: 256 entries indexed by the operand pair (R39). An entry of at most 15 is a verified product; any
other value means "not yet computed". R39 gives an entry no width (8 bits are its example), so an entry is a number of no
fixed width: DESIGN CHOICE, log entry 7. -/
abbrev Cache := Vector Nat 256

/-- The out-of-range sentinel: some value above 15, which one is open (R39, I3). -/
def sentinel : Nat := 16 + Config.sentinelAbove

/-- The cache at power-up: every entry holds the sentinel (R39, R231). A later reset leaves the cache as it is (R231). -/
def powerUpCache : Cache := Vector.replicate 256 sentinel

/-- The product the entry (a, b) holds, if it holds one (R39). -/
def cacheEntry (t : Cache) (a b : Nibble) : Option Nibble :=
  if t.get (pairIndex a b) ≤ 15 then some (BitVec.ofNat 4 (t.get (pairIndex a b))) else none

/-- Write a product at both (a, b) and (b, a) (R39, R105). -/
def cacheFill (t : Cache) (a b v : Nibble) : Cache :=
  (t.set (pairIndex a b).val v.toNat (pairIndex a b).isLt).set (pairIndex b a).val v.toNat (pairIndex b a).isLt

/-- Is the pair one of the short-circuited ones: does it hold a 0 or a 1 (R105, step 1)? -/
def shortCircuits (a b : Nibble) : Bool := a.toNat ≤ 1 || b.toNat ≤ 1

/-- A multiplication in the lazy design (R105): the short circuit first, then the look-up, then the computation with
its symmetric store (90_conflicts.md C2). `fillShort` says whether a short-circuited result is cached, which R105
leaves open ("may still be cached"). -/
def lazyMultiply (red : Nibble) (fillShort : Bool) (t : Cache) (a b : Nibble) : Nibble × Cache :=
  if shortCircuits a b then
    (mulDoc red a b, if fillShort then cacheFill t a b (mulDoc red a b) else t)
  else
    match cacheEntry t a b with
    | some v => (v, t)
    | none => (gfmul red a b, cacheFill t a b (gfmul red a b))

/-- How a platform holds the products (R38, R39, R241). -/
inductive TableDesign where
  /-- The eager immutable table, this hardware's choice (R38, D11). -/
  | eager
  /-- A lazy cache that one engine alone uses (R241: "one cache per execution context"). -/
  | ownCache
  /-- A lazy cache several engines share, each read-check-compute-write under a lock (R241). -/
  | lockedCache
  /-- A lazy cache several engines share without a lock: its race has no meaning (R210). -/
  | unsynchronisedCache
  deriving DecidableEq, Repr

/-- A multiplication under a design, with the cache afterwards (R105, R210, R241). -/
def multiplyVia (d : TableDesign) (red : Nibble) (fillShort : Bool) (t : Cache) (a b : Nibble) :
    Host.Outcome (Nibble × Cache) Fault Refusal :=
  match d with
  | .eager => .next (lookup (multTable red) a b, t)
  | .ownCache => .next (lazyMultiply red fillShort t a b)
  | .lockedCache => .next (lazyMultiply red fillShort t a b)
  | .unsynchronisedCache => .refused .unsynchronisedSharedCache

end Sys2Proof.Machine
end

