-- ==== Sys2Proof/Safety.lean ====
section
/-! DEFINITION. The terms the statements use: the invariant of a run, the code a command must answer, a multiplication
matrix's inverse, and what a verified cache is. -/

namespace Sys2Proof.Machine

/-! ### The invariant of a run -/

/-- PHASE and SQCNT agree: SQCNT is 0 before any SQUEEZE, below 8 while squeezing and 8 when done (R26, R27, R154). -/
def phaseCountsAgree (E : Engine) : Bool :=
  match E.phase with
  | .idle => E.sqcnt = 0
  | .absorb => E.sqcnt = 0
  | .squeeze => E.sqcnt.toNat < 8
  | .done => E.sqcnt = 8

/-- A response word as R76 formats it: bits [7:2] and [31:24] are 0, and a nonzero CODE has R0 = R1 = 0. -/
def responseWellFormed (w : Word) : Bool :=
  w.extractLsb' 2 6 = 0 ∧ w.extractLsb' 24 8 = 0 ∧ (responseCode w ≠ 0 → resultByte0 w = 0 ∧ resultByte1 w = 0)

/-- What every run keeps: PHASE and SQCNT agree, and every response returned is well formed. -/
def Inv (s : State) : Prop := phaseCountsAgree s.engine = true ∧ ∀ w ∈ s.responses, responseWellFormed w = true

/-- STATUS's fields are legal: SQCNT at most 8 and bits [15:8] 0 (R29). -/
def statusLegal (v : BitVec 16) : Prop := (v.extractLsb' 2 4).toNat ≤ 8 ∧ v.extractLsb' 8 8 = 0

/-- Two machines that no command but RDSTATUS can tell apart: they differ in ERR alone (R28). -/
def sameButErr (s t : State) : Prop :=
  s.engine.S = t.engine.S ∧ s.engine.phase = t.engine.phase ∧ s.engine.sqcnt = t.engine.sqcnt ∧
    s.pending = t.pending ∧ s.responses = t.responses

/-! ### The code a command word answers, from its bits (R205) -/

/-- The data fields that must be 0 for this opcode, read as one number, are 0 (R71). -/
def mustBeZeroHolds (w : Word) : Bool :=
  match (w.extractLsb' 0 4).toNat with
  | 0 => w.extractLsb' 8 16 = 0
  | 2 => w.extractLsb' 8 16 = 0
  | 3 => w.extractLsb' 16 8 = 0
  | 4 => w.extractLsb' 8 16 = 0
  | 5 => w.extractLsb' 8 16 = 0
  | 7 => w.extractLsb' 16 8 = 0
  | 9 => w.extractLsb' 8 16 = 0
  | _ => true

/-- The opcode's sponge command is out of its phase (R202). -/
def outOfPhase (w : Word) (p : Phase) : Bool :=
  match (w.extractLsb' 0 4).toNat with
  | 1 => p ≠ .absorb
  | 2 => p ≠ .absorb
  | 3 => p ≠ .absorb
  | 4 => p ≠ .squeeze
  | _ => false

/-- The opcode's state index is unmapped (R204). -/
def unmappedIndex (w : Word) : Bool :=
  match (w.extractLsb' 0 4).toNat with
  | 7 => 18 ≤ (w.extractLsb' 8 8).toNat
  | 8 => 18 ≤ (w.extractLsb' 8 8).toNat
  | _ => false

/-- The one code the word answers in this phase, in R205's order: ILLEGAL for the reserved bits or the opcode, ILLEGAL
for a must-be-zero field, SEQUENCE, RANGE, and else OK. -/
def expectedCode (w : Word) (p : Phase) : BitVec 2 :=
  if w.extractLsb' 4 4 ≠ 0 ∨ w.extractLsb' 24 8 ≠ 0 ∨ 10 ≤ (w.extractLsb' 0 4).toNat then 1
  else if mustBeZeroHolds w = false then 1
  else if outOfPhase w p then 2
  else if unmappedIndex w then 3
  else 0

/-- The opcode's words are exactly a row's: a word with this opcode that the row spells decodes to the command of its
D0 and D1, and any other word with this opcode spells no command (R71, R73, R79). -/
def encodedAs (o : Nibble) (value mask : Word) (command : Byte → Byte → Instr) : Prop :=
  ∀ w : Word, w.extractLsb' 0 4 = o →
    (w &&& mask = value → decode w = .ok (command (w.extractLsb' 8 8) (w.extractLsb' 16 8))) ∧
    (w &&& mask ≠ value → ∃ cause, decode w = .error cause)

/-! ### The operands of a command (R75) -/

/-- A command's operands as numbers, in the order an assembler line writes them (R81). -/
def operandNumbers : Instr → List Nat
  | .init => []
  | .absorb b0 b1 => [b0.toNat, b1.toNat]
  | .pad0 => []
  | .pad1 b => [b.toNat]
  | .squeeze => []
  | .permute => []
  | .gfmul a b => [a.toNat, b.toNat]
  | .rdstate k => [k.toNat]
  | .wrstate k v => [k.toNat, v.toNat]
  | .rdstatus => []

/-! ### Commands that fail (R203) -/

/-- t is s after a command that failed with c: only ERR and the responses differ (R203). -/
def failedWith (c : ErrCode) (s t : State) : Prop :=
  t.engine.S = s.engine.S ∧ t.engine.phase = s.engine.phase ∧ t.engine.sqcnt = s.engine.sqcnt ∧
    t.pending = s.pending ∧ (s.engine.err = none → t.engine.err = some c) ∧
    (s.engine.err ≠ none → t.engine.err = s.engine.err) ∧ t.responses = s.responses ++ [c.code.setWidth 32]

/-- The response of a command that completes with result bytes r0 and r1: bits [7:0] and [31:24] are 0, R0 is [15:8] and
R1 is [23:16] (R76). -/
def okWord (r0 r1 : Byte) : Word := 0#8 ++ r1 ++ r0 ++ 0#8

/-! ### Matrices over the multiplier (R127) -/

/-- The entry (i, j) of the product of two 6×6 matrices over gfmul. -/
def matrixProduct (red : Nibble) (M N : Vector (Vector Nibble 6) 6) (i j : Fin 6) : Nibble :=
  six.foldl (fun acc k => acc ^^^ gfmul red ((M.get i).get k) ((N.get k).get j)) 0

/-- N is the inverse of M on both sides. -/
def inverseMatrices (red : Nibble) (M N : Vector (Vector Nibble 6) 6) : Prop :=
  ∀ i j : Fin 6, matrixProduct red M N i j = (if i = j then 1 else 0) ∧
    matrixProduct red N M i j = (if i = j then 1 else 0)

/-! ### The lazy cache (R39) -/

/-- Every entry that holds a value is a verified product, and entries are filled symmetrically (R39). -/
def cacheVerified (red : Nibble) (t : Cache) : Prop :=
  ∀ a b : Nibble, (∀ v, cacheEntry t a b = some v → v = gfmul red a b) ∧ cacheEntry t a b = cacheEntry t b a

/-- Every entry that t holds, u holds (R39: the cache "grows monotonically, and never shrinks or resets"). -/
def cacheGrows (t u : Cache) : Prop := ∀ a b v : Nibble, cacheEntry t a b = some v → cacheEntry u a b = some v

end Sys2Proof.Machine
end

