-- ==== Sys2Proof/Certificates/Slice0/Obligations.lean ====
section
/-! DEFINITION. The statements for the provers. Each holds for every choice of the open tables (R44), which the machine
reads as opaque constants; where a statement names the candidate values of spec 93 it says so. -/

open Sys2Proof Sys2Proof.Machine

/-! ### Words and commands -/

/-- R84: the spec's own example words, what each decodes to, and the RANGE failure of RDSTATE 18. -/
def Obligations.SpecExampleWordsDecode : Prop :=
  decode 0x00000000 = .ok .init ∧
  decode 0x00626101 = .ok (.absorb 0x61 0x62) ∧
  decode 0x00006303 = .ok (.pad1 0x63) ∧
  decode 0x00000004 = .ok .squeeze ∧
  decode 0x00253706 = .ok (.gfmul 0x7 0x5) ∧
  decode 0x00001207 = .ok (.rdstate 18) ∧
  (∀ s : State, ∃ t, exec (.rdstate 18) s = .next t ∧ failedWith .range s t) ∧
  decode 0x0000000A = .error .unassignedOpcode ∧
  decode 0x00000010 = .error .reservedBits ∧
  decode 0x01000000 = .error .reservedBits ∧
  decode 0x00000102 = .error .mustBeZero

/-- R79, R81: decoding a command's word gives the command back, every operand at every value. -/
def Obligations.DecodeOfEncodeIsTheCommand : Prop :=
  ∀ i : Instr, decode (encode i) = .ok i

/-- R75, R79, R81: encoding what a word decodes to gives the word back, but for the high nibbles GFMUL ignores. That those
come back as 0 is the encoder's convention, the model's: log entry 13. -/
def Obligations.EncodeOfDecodeIsTheWord : Prop :=
  ∀ (w : Word) (i : Instr), decode w = .ok i →
    encode i = w &&& (if w.extractLsb' 0 4 = 6 then 0xFF0F0FFF else 0xFFFFFFFF)

/-- R79: the match and mask of every row of the opcode table are the decode function written out per command. -/
def Obligations.OpcodeTableIsTheDecoder : Prop :=
  ∀ w : Word,
    (∀ i, decode w = .ok i → ∃ r ∈ opcodeTable, r.mnemonic = mnemonicOf i ∧ r.spells w) ∧
    (∀ r ∈ opcodeTable, r.spells w → ∃ i, decode w = .ok i ∧ mnemonicOf i = r.mnemonic)

/-- R201: the four causes of ILLEGAL are exactly the words that decode to no command, and each raises ILLEGAL. -/
def Obligations.IllegalIsRaisedForItsCausesOnly : Prop :=
  ∀ w : Word,
    ((∃ cause, decode w = .error cause) ↔
      (w.extractLsb' 4 4 ≠ 0 ∨ w.extractLsb' 24 8 ≠ 0 ∨ 10 ≤ (w.extractLsb' 0 4).toNat ∨ mustBeZeroHolds w = false)) ∧
    ∀ (s : State) (rest : List HostEvent), s.pending = .command w :: rest → (∃ cause, decode w = .error cause) →
      ∃ t, step s = .next t ∧ failedWith .illegal { s with pending := rest } t

/-- R55: in a byte transfer, byte j is bits [8j+7:8j] of the word, D0 is transfer byte 1 and D1 transfer byte 2. -/
def Obligations.TransferIsLittleEndian : Prop :=
  ∀ (t0 t1 t2 t3 : Byte) (rest : List Byte), ∃ w : Word,
    decodeBytes (t0 :: t1 :: t2 :: t3 :: rest) = some (decode w, rest) ∧ transferBytes w = [t0, t1, t2, t3] ∧
    (∀ (j : Fin 4) (b : Nat), b < 8 → w.getLsbD (8 * j.val + b) = ([t0, t1, t2, t3].get j).getLsbD b) ∧
    d0 w = t1 ∧ d1 w = t2

/-- R81, R82: exactly the well-formed lines assemble, a GFMUL operand above 0xF is rejected, and a command line gives
one command: its mnemonic's, with the line's operands in order, each a number or the code of a quoted ASCII character,
and its word has its must-be-zero fields 0 and so decodes. That a byte operand above 0xFF is rejected, and that GFMUL's
operands may be quoted, is the model's choice: log entry 9. -/
def Obligations.AssemblerTakesWellFormedLinesOnly : Prop :=
  (∀ line : AsmLine, (∃ cs, assemble line = some cs) ↔ line.wellFormed = true) ∧
  (∀ x y : Nat, 0xF < x ∨ 0xF < y → assemble (.command .gfmul [.num x, .num y]) = none) ∧
  (∀ m operands, (AsmLine.command m operands).wellFormed = true →
    ∃ i, assemble (.command m operands) = some [i] ∧ mnemonicOf i = m ∧
      List.Forall₂ (fun o n => o = .num n ∨ ∃ c, o = .ascii c ∧ c.toNat = n ∧ n < 128) operands (operandNumbers i) ∧
      decode (encode i) = .ok i) ∧
  (∀ message, assemble (.hash message) = some (hashCommands message))

/-- R81: the text of a command, mnemonic and operands in hex, assembles to that command, and an operand may also be
written in decimal or, for a byte, as a quoted ASCII character. What the text may hold besides R81's
words is the model's choice: log entry 9. -/
def Obligations.CommandTextAssemblesBack : Prop :=
  (∀ i : Instr, assembleText (commandText i) = some i) ∧
  (∀ b : Byte, assembleText (mnemonicText .pad1 ++ [' '] ++ Nat.toDigits 10 b.toNat) = some (.pad1 b)) ∧
  ∀ n : Fin 128, assembleText (mnemonicText .pad1 ++ [' ', quoteMark, Char.ofNat n.val, quoteMark]) =
    some (.pad1 (BitVec.ofNat 8 n.val))

/-! ### Steps -/

/-- R61, R234: when the next word the host wrote decodes to a command, the step is that command's effect, with the word
taken off the pending ones. -/
def Obligations.StepRunsTheDecodedCommand : Prop :=
  ∀ (s : State) (w : Word) (i : Instr) (rest : List HostEvent),
    s.pending = .command w :: rest → decode w = .ok i → step s = exec i { s with pending := rest }

/-- R217: between commands the block is idle and keeps all of E. That such a step is a next state with nothing changed
is the model's choice: log entry 2. -/
def Obligations.IdleStepKeepsTheState : Prop :=
  ∀ s : State, s.pending = [] → step s = .next s

/-- R76: every command, failing or not, returns one response word, of R76's format, with R0 = R1 = 0 if it failed; the
command is taken off the pending ones. -/
def Obligations.EveryCommandReturnsOneResponse : Prop :=
  ∀ (s : State) (w : Word) (rest : List HostEvent), s.pending = .command w :: rest →
    ∃ (t : State) (resp : Word), step s = .next t ∧ t.pending = rest ∧ t.responses = s.responses ++ [resp] ∧
      resp.extractLsb' 2 6 = 0 ∧ resp.extractLsb' 24 8 = 0 ∧
      (resp.extractLsb' 0 2 ≠ 0 → resp.extractLsb' 8 8 = 0 ∧ resp.extractLsb' 16 8 = 0)

/-- R10, R74: the machine is a total function; no word is refused and no run stops. That a step beyond the host's pending
acts is a next state as well is the model's choice: log entry 2. -/
def Obligations.EveryRunCompletes : Prop :=
  ∀ (k : Nat) (s : State), ∃ t, run k s = .next t

/-- R230: a reset sets every field of E to its reset value and produces no response. That the host's later acts stay
pending is the model's choice: log entry 5. -/
def Obligations.ResetSetsEveryField : Prop :=
  ∀ (s : State) (rest : List HostEvent), s.pending = .reset :: rest →
    ∃ t, step s = .next t ∧ (∀ k : Fin 18, getByte t.engine.S k = 0x00) ∧ t.engine.phase = .idle ∧
      t.engine.sqcnt = 0 ∧ t.engine.err = none ∧ t.responses = s.responses ∧ t.pending = rest

/-- R235: a command that a reset interrupts has no effect and gets no response; E takes its reset values. That the host's
later acts stay pending is the model's choice: log entry 5. -/
def Obligations.ResetDuringACommandUndoesIt : Prop :=
  ∀ (s : State) (w : Word) (rest : List HostEvent), s.pending = .commandCutByReset w :: rest →
    ∃ t, step s = .next t ∧ (∀ k : Fin 18, getByte t.engine.S k = 0x00) ∧ t.engine.phase = .idle ∧
      t.engine.sqcnt = 0 ∧ t.engine.err = none ∧ t.responses = s.responses ∧ t.pending = rest

/-- R43: the reset value of S, PHASE, SQCNT, ERR and STATUS. -/
def Obligations.ResetStateHasTheSpecValues : Prop :=
  (∀ k : Fin 18, getByte State.reset.engine.S k = 0x00) ∧ State.reset.engine.phase = .idle ∧
  State.reset.engine.sqcnt = 0 ∧ State.reset.engine.err = none ∧ status State.reset.engine = 0x0000

/-! ### Errors -/

/-- R203, R206: a word whose response carries a nonzero code leaves S, PHASE and SQCNT as they were and writes ERR only
if ERR was 0; and only INIT and reset clear ERR. -/
def Obligations.FailingCommandsOnlyLatchErr : Prop :=
  ∀ s t : State, step s = .next t →
    (∀ (w : Word) (rest : List HostEvent) (resp : Word), s.pending = .command w :: rest →
      t.responses = s.responses ++ [resp] → responseCode resp ≠ 0 →
      ∃ c : ErrCode, responseCode resp = c.code ∧ failedWith c { s with pending := rest } t) ∧
    (s.engine.err ≠ none → t.engine.err ≠ s.engine.err → t.engine.err = none ∧
      ∃ e rest, s.pending = e :: rest ∧ (e = .command 0x00000000 ∨ e = .reset ∨ ∃ w, e = .commandCutByReset w))

/-- R202: the phase each sponge command is legal in; outside it the command fails with SEQUENCE, inside it and for every
other command SEQUENCE is never the answer. -/
def Obligations.SequenceIsRaisedOutOfPhaseOnly : Prop :=
  ∀ s : State,
    (s.engine.phase ≠ .absorb → ∀ i : Instr, (∃ b0 b1, i = .absorb b0 b1) ∨ i = .pad0 ∨ (∃ b, i = .pad1 b) →
      ∃ t, exec i s = .next t ∧ failedWith .sequence s t) ∧
    (s.engine.phase ≠ .squeeze → ∃ t, exec .squeeze s = .next t ∧ failedWith .sequence s t) ∧
    (∀ i : Instr, ((∃ b0 b1, i = .absorb b0 b1) ∨ i = .pad0 ∨ (∃ b, i = .pad1 b) → s.engine.phase = .absorb) →
      (i = .squeeze → s.engine.phase = .squeeze) →
      ∃ t resp, exec i s = .next t ∧ t.responses = s.responses ++ [resp] ∧ responseCode resp ≠ 2)

/-- R204: RDSTATE and WRSTATE fail with RANGE for the indexes 18 to 255, and for no other. -/
def Obligations.RangeIsRaisedFromIndexEighteenOn : Prop :=
  ∀ (s : State) (k v : Byte),
    (18 ≤ k.toNat → (∃ t, exec (.rdstate k) s = .next t ∧ failedWith .range s t) ∧
      ∃ t, exec (.wrstate k v) s = .next t ∧ failedWith .range s t) ∧
    (k.toNat < 18 → ∀ i : Instr, i = .rdstate k ∨ i = .wrstate k v →
      ∃ t resp, exec i s = .next t ∧ t.responses = s.responses ++ [resp] ∧ responseCode resp = 0)

/-- R205: the code of a word's response is the first cause in R205's order that applies, read from the word's bits and
the phase; and no word meets both SEQUENCE and RANGE. -/
def Obligations.FirstCauseInPriorityOrderIsReported : Prop :=
  ∀ (s : State) (w : Word) (rest : List HostEvent), s.pending = .command w :: rest →
    (∃ t resp, step s = .next t ∧ t.responses = s.responses ++ [resp] ∧
      responseCode resp = expectedCode w s.engine.phase) ∧
    ¬(outOfPhase w s.engine.phase = true ∧ unmappedIndex w = true)

/-- R28: over any run of command words without INIT that starts with ERR = 0, ERR ends as the code of the first response
that reports an error, and 0 if none does. -/
def Obligations.ErrHoldsTheFirstErrorOfARun : Prop :=
  ∀ (ws : List Word) (rest : List HostEvent) (s t : State), s.engine.err = none →
    s.pending = ws.map .command ++ rest → (∀ w ∈ ws, w ≠ 0x00000000) → run ws.length s = .next t →
    errBits t.engine.err =
      (((t.responses.drop s.responses.length).map responseCode).find? fun code => code ≠ 0).getD 0

/-- R28: no command but RDSTATUS behaves differently because of ERR: from two states that differ in ERR alone, a step
gives two states that differ at most in ERR. -/
def Obligations.ErrChangesNoOtherCommand : Prop :=
  ∀ s s' : State, sameButErr s s' → (∀ rest, s.pending ≠ .command 0x00000009 :: rest) →
    ∃ t t', step s = .next t ∧ step s' = .next t' ∧ sameButErr t t'

/-! ### PHASE and SQCNT -/

/-- R26: PHASE is written by INIT, PAD0, PAD1, the 8th SQUEEZE and reset, with these values, and by nothing else. -/
def Obligations.PhaseIsWrittenByItsWritersOnly : Prop :=
  ∀ s t : State, step s = .next t → t.engine.phase = s.engine.phase ∨ ∃ e rest, s.pending = e :: rest ∧
    ((∃ w, e = .command w ∧ decode w = .ok .init ∧ t.engine.phase = .absorb) ∨
     (∃ w, e = .command w ∧ (decode w = .ok .pad0 ∨ ∃ b, decode w = .ok (.pad1 b)) ∧ s.engine.phase = .absorb ∧
        t.engine.phase = .squeeze) ∨
     (∃ w, e = .command w ∧ decode w = .ok .squeeze ∧ s.engine.phase = .squeeze ∧ s.engine.sqcnt = 7 ∧
        t.engine.phase = .done) ∨
     ((e = .reset ∨ ∃ w, e = .commandCutByReset w) ∧ t.engine.phase = .idle))

/-- R27: INIT, PAD0, PAD1 and reset write 0 to SQCNT, a SQUEEZE that completes adds 1, and nothing else writes it. -/
def Obligations.SqcntIsWrittenByItsWritersOnly : Prop :=
  ∀ s t : State, step s = .next t → t.engine.sqcnt = s.engine.sqcnt ∨ ∃ e rest, s.pending = e :: rest ∧
    ((∃ w, e = .command w ∧ (decode w = .ok .init ∨ decode w = .ok .pad0 ∨ ∃ b, decode w = .ok (.pad1 b)) ∧
        t.engine.sqcnt = 0) ∨
     (∃ w, e = .command w ∧ decode w = .ok .squeeze ∧ s.engine.phase = .squeeze ∧
        t.engine.sqcnt = s.engine.sqcnt + 1) ∨
     ((e = .reset ∨ ∃ w, e = .commandCutByReset w) ∧ t.engine.sqcnt = 0))

/-- R232: from IDLE, command words other than INIT keep the block in IDLE, where the sponge commands fail with SEQUENCE;
INIT is the only way into ABSORB. -/
def Obligations.OnlyInitLeavesIdle : Prop :=
  ∀ (ws : List Word) (rest : List HostEvent) (s t : State), s.engine.phase = .idle →
    s.pending = ws.map .command ++ rest → (∀ w ∈ ws, w ≠ 0x00000000) → run ws.length s = .next t →
    t.engine.phase = .idle ∧
    (∀ i : Instr, (∃ b0 b1, i = .absorb b0 b1) ∨ i = .pad0 ∨ (∃ b, i = .pad1 b) ∨ i = .squeeze →
      ∃ u, exec i t = .next u ∧ failedWith .sequence t u) ∧
    ∃ u, exec .init t = .next u ∧ u.engine.phase = .absorb

/-- The invariant holds at reset. -/
def Obligations.ResetStateKeepsInvariant : Prop := Inv State.reset

/-- R26, R27, R76: every step keeps the invariant: PHASE and SQCNT agree (SQCNT 0 in IDLE and ABSORB, below 8 in SQUEEZE,
8 in DONE) and every response is well formed. -/
def Obligations.EveryStepKeepsInvariant : Prop :=
  ∀ s t : State, Inv s → step s = .next t → Inv t

/-- R29: STATUS's fields are copies of PHASE, SQCNT and ERR, bits [15:8] read 0, and where PHASE and SQCNT agree, SQCNT
is at most 8. -/
def Obligations.StatusShowsPhaseSqcntErr : Prop :=
  ∀ E : Engine,
    (status E).extractLsb' 0 2 = (match E.phase with | .idle => 0 | .absorb => 1 | .squeeze => 2 | .done => 3) ∧
    (status E).extractLsb' 2 4 = E.sqcnt ∧
    (status E).extractLsb' 6 2 =
      (match E.err with | none => 0 | some .illegal => 1 | some .sequence => 2 | some .range => 3) ∧
    (status E).extractLsb' 8 8 = 0 ∧
    (phaseCountsAgree E = true → statusLegal (status E))

/-! ### The result of each command, its frame, and where it completes -/

/-- R150: INIT, in every phase; it is the word 0 and no other word of its opcode. -/
def Obligations.InitStartsAHash : Prop :=
  (∀ s : State, ∃ t, exec .init s = .next t ∧
    (∀ k : Fin 18, getByte t.engine.S k = if k.val < 15 then 0x00 else if k.val = 15 then 0x20 else 0x10) ∧
    t.engine.phase = .absorb ∧ t.engine.sqcnt = 0 ∧ t.engine.err = none ∧
    t.pending = s.pending ∧ t.responses = s.responses ++ [okWord 0x00 0x00]) ∧
  encodedAs 0x0 0x00000000 0xFFFFFFFF fun _ _ => .init

/-- R151: ABSORB XORs its bytes into S[0] and S[1] and applies P, in ABSORB; PHASE, SQCNT and ERR are unchanged. Outside
ABSORB it fails with SEQUENCE. -/
def Obligations.AbsorbXorsABlockAndPermutes : Prop :=
  (∀ (s : State) (b0 b1 : Byte),
    (s.engine.phase = .absorb → ∃ t X, exec (.absorb b0 b1) s = .next t ∧
      getByte X 0 = getByte s.engine.S 0 ^^^ b0 ∧ getByte X 1 = getByte s.engine.S 1 ^^^ b1 ∧
      (∀ k : Fin 18, 2 ≤ k.val → getByte X k = getByte s.engine.S k) ∧ t.engine.S = P X ∧
      t.engine.phase = .absorb ∧ t.engine.sqcnt = s.engine.sqcnt ∧ t.engine.err = s.engine.err ∧
      t.pending = s.pending ∧ t.responses = s.responses ++ [okWord 0x00 0x00]) ∧
    (s.engine.phase ≠ .absorb → ∃ t, exec (.absorb b0 b1) s = .next t ∧ failedWith .sequence s t)) ∧
  encodedAs 0x1 0x00000001 0xFF0000FF .absorb

/-- R152: PAD0 XORs 0x80 into S[0], leaves S[1], applies P, and begins the squeezing. -/
def Obligations.Pad0EndsAnEvenMessage : Prop :=
  (∀ s : State,
    (s.engine.phase = .absorb → ∃ t X, exec .pad0 s = .next t ∧
      getByte X 0 = getByte s.engine.S 0 ^^^ 0x80 ∧
      (∀ k : Fin 18, 1 ≤ k.val → getByte X k = getByte s.engine.S k) ∧ t.engine.S = P X ∧
      t.engine.phase = .squeeze ∧ t.engine.sqcnt = 0 ∧ t.engine.err = s.engine.err ∧
      t.pending = s.pending ∧ t.responses = s.responses ++ [okWord 0x00 0x00]) ∧
    (s.engine.phase ≠ .absorb → ∃ t, exec .pad0 s = .next t ∧ failedWith .sequence s t)) ∧
  encodedAs 0x2 0x00000002 0xFFFFFFFF fun _ _ => .pad0

/-- R153: PAD1 XORs the last byte into S[0] and 0x80 into S[1], applies P, and begins the squeezing. -/
def Obligations.Pad1EndsAnOddMessage : Prop :=
  (∀ (s : State) (b : Byte),
    (s.engine.phase = .absorb → ∃ t X, exec (.pad1 b) s = .next t ∧
      getByte X 0 = getByte s.engine.S 0 ^^^ b ∧ getByte X 1 = getByte s.engine.S 1 ^^^ 0x80 ∧
      (∀ k : Fin 18, 2 ≤ k.val → getByte X k = getByte s.engine.S k) ∧ t.engine.S = P X ∧
      t.engine.phase = .squeeze ∧ t.engine.sqcnt = 0 ∧ t.engine.err = s.engine.err ∧
      t.pending = s.pending ∧ t.responses = s.responses ++ [okWord 0x00 0x00]) ∧
    (s.engine.phase ≠ .absorb → ∃ t, exec (.pad1 b) s = .next t ∧ failedWith .sequence s t)) ∧
  encodedAs 0x3 0x00000003 0xFFFF00FF fun b _ => .pad1 b

/-- R154: SQUEEZE emits S[0] and S[1], after one more P unless SQCNT is 0, counts the pair, and the 8th ends the hash. -/
def Obligations.SqueezeEmitsTheNextPair : Prop :=
  (∀ s : State,
    (s.engine.phase = .squeeze → ∃ t, exec .squeeze s = .next t ∧
      t.engine.S = (if s.engine.sqcnt = 0 then s.engine.S else P s.engine.S) ∧
      t.engine.sqcnt = s.engine.sqcnt + 1 ∧
      t.engine.phase = (if s.engine.sqcnt = 7 then .done else .squeeze) ∧ t.engine.err = s.engine.err ∧
      t.pending = s.pending ∧
      t.responses = s.responses ++ [okWord (getByte t.engine.S 0) (getByte t.engine.S 1)]) ∧
    (s.engine.phase ≠ .squeeze → ∃ t, exec .squeeze s = .next t ∧ failedWith .sequence s t)) ∧
  encodedAs 0x4 0x00000004 0xFFFFFFFF fun _ _ => .squeeze

/-- R129: PERMUTE applies P once, in every phase, and leaves PHASE, SQCNT and ERR. -/
def Obligations.PermuteAppliesPOnce : Prop :=
  (∀ s : State, ∃ t, exec .permute s = .next t ∧ t.engine.S = P s.engine.S ∧
    t.engine.phase = s.engine.phase ∧ t.engine.sqcnt = s.engine.sqcnt ∧ t.engine.err = s.engine.err ∧
    t.pending = s.pending ∧ t.responses = s.responses ++ [okWord 0x00 0x00]) ∧
  encodedAs 0x5 0x00000005 0xFFFFFFFF fun _ _ => .permute

/-- R107: GFMUL answers the product of the low nibbles, zero-extended, and writes no state; the high nibbles of D0 and
D1 are ignored. -/
def Obligations.GfmulAnswersTheProduct : Prop :=
  (∀ (s : State) (a b : Nibble), ∃ t, exec (.gfmul a b) s = .next t ∧ t.engine = s.engine ∧
    t.pending = s.pending ∧ t.responses = s.responses ++ [okWord ((gfmul Config.red a b).setWidth 8) 0x00]) ∧
  encodedAs 0x6 0x00000006 0xFF0000FF fun x y => .gfmul (x.extractLsb' 0 4) (y.extractLsb' 0 4)

/-- R180: RDSTATE answers S[k] for k below 18 and writes no state; from 18 on it fails with RANGE. After reset every byte
reads 0x00, and after INIT byte 15 reads 0x20. -/
def Obligations.RdstateReadsOneByte : Prop :=
  (∀ (s : State) (k : Byte),
    (∀ h : k.toNat < 18, ∃ t, exec (.rdstate k) s = .next t ∧ t.engine = s.engine ∧ t.pending = s.pending ∧
      t.responses = s.responses ++ [okWord (getByte s.engine.S ⟨k.toNat, h⟩) 0x00]) ∧
    (18 ≤ k.toNat → ∃ t, exec (.rdstate k) s = .next t ∧ failedWith .range s t)) ∧
  (∀ k : Fin 18, getByte State.reset.engine.S k = 0x00) ∧
  (∀ s : State, ∃ t u, exec .init s = .next t ∧ exec (.rdstate 15) t = .next u ∧
    u.responses = t.responses ++ [0x00002000]) ∧
  encodedAs 0x7 0x00000007 0xFFFF00FF fun k _ => .rdstate k

/-- R181: WRSTATE writes S[k] and no other byte, and leaves PHASE, SQCNT and ERR; from 18 on it fails with RANGE. -/
def Obligations.WrstateWritesOneByte : Prop :=
  (∀ (s : State) (k v : Byte),
    (k.toNat < 18 → ∃ t, exec (.wrstate k v) s = .next t ∧
      (∀ j : Fin 18, getByte t.engine.S j = if j.val = k.toNat then v else getByte s.engine.S j) ∧
      t.engine.phase = s.engine.phase ∧ t.engine.sqcnt = s.engine.sqcnt ∧ t.engine.err = s.engine.err ∧
      t.pending = s.pending ∧ t.responses = s.responses ++ [okWord 0x00 0x00]) ∧
    (18 ≤ k.toNat → ∃ t, exec (.wrstate k v) s = .next t ∧ failedWith .range s t)) ∧
  encodedAs 0x8 0x00000008 0xFF0000FF .wrstate

/-- R182: RDSTATUS answers STATUS[7:0] and STATUS[15:8], which is always 0, and writes no state, ERR among it; STATUS
reads 0x00 after reset, 0x23 after a complete hash, 0xA3 after a 9th SQUEEZE and 0x01 after INIT. -/
def Obligations.RdstatusReadsStatus : Prop :=
  (∀ s : State, ∃ t, exec .rdstatus s = .next t ∧ t.engine = s.engine ∧ t.pending = s.pending ∧
    t.responses = s.responses ++ [okWord ((status s.engine).extractLsb' 0 8) 0x00] ∧
    (status s.engine).extractLsb' 8 8 = 0x00) ∧
  (∀ E : Engine, E.phase = .done → E.sqcnt = 8 →
    (E.err = none → status E = 0x0023) ∧ (E.err = some .sequence → status E = 0x00A3)) ∧
  status State.reset.engine = 0x0000 ∧
  (∀ s : State, ∃ t u, exec .init s = .next t ∧ exec .rdstatus t = .next u ∧
    u.responses = t.responses ++ [0x00000100]) ∧
  encodedAs 0x9 0x00000009 0xFFFFFFFF fun _ _ => .rdstatus

/-! ### What commands leave to each other -/

/-- R183: the debug commands write neither PHASE nor SQCNT, fail in no phase with SEQUENCE, and write ERR only by failing. -/
def Obligations.DebugCommandsArePhaseFree : Prop :=
  ∀ (s : State) (i : Instr),
    i = .permute ∨ (∃ a b, i = .gfmul a b) ∨ (∃ k, i = .rdstate k) ∨ (∃ k v, i = .wrstate k v) ∨ i = .rdstatus →
    ∃ t resp, exec i s = .next t ∧ t.responses = s.responses ++ [resp] ∧ responseCode resp ≠ 2 ∧
      t.engine.phase = s.engine.phase ∧ t.engine.sqcnt = s.engine.sqcnt ∧
      (responseCode resp = 0 → t.engine.err = s.engine.err)

/-- R183: 18 WRSTATEs put S in any state X, PERMUTE applies P to it, and 18 RDSTATEs read P(X) back, from every state. -/
def Obligations.AnyStateCanBeWrittenPermutedAndRead : Prop :=
  ∀ (X : Grid) (rest : List HostEvent) (s : State),
    let writes := (List.finRange 18).map fun k => Instr.wrstate (BitVec.ofNat 8 k.val) (getByte X k)
    let reads := (List.finRange 18).map fun k => Instr.rdstate (BitVec.ofNat 8 k.val)
    s.pending = rest →
    (∃ u, run 18 (writeCommands (writes ++ .permute :: reads) s) = .next u ∧ u.engine.S = X) ∧
    ∃ t, run 37 (writeCommands (writes ++ .permute :: reads) s) = .next t ∧ t.pending = rest ∧ t.engine.S = P X ∧
      t.engine.phase = s.engine.phase ∧ t.engine.sqcnt = s.engine.sqcnt ∧ t.engine.err = s.engine.err ∧
      t.responses = s.responses ++ List.replicate 19 (okWord 0x00 0x00) ++
        (List.finRange 18).map fun k => okWord (getByte (P X) k) 0x00

/-- R25: the sponge commands read no capacity byte but through P: from two states that agree but for S[2] to S[17],
ABSORB, PAD0, PAD1 and the first SQUEEZE answer the same responses and the same PHASE, SQCNT and ERR. A later SQUEEZE
answers from S[0] and S[1] of P(S): from two states whose P(S) agree there it answers the same. -/
def Obligations.SpongeCommandsAnswerFromTheRatePart : Prop :=
  (∀ (s s' : State) (i : Instr),
    (∃ b0 b1, i = .absorb b0 b1) ∨ i = .pad0 ∨ (∃ b, i = .pad1 b) ∨ (i = .squeeze ∧ s.engine.sqcnt = 0) →
    getByte s.engine.S 0 = getByte s'.engine.S 0 → getByte s.engine.S 1 = getByte s'.engine.S 1 →
    s.engine.phase = s'.engine.phase → s.engine.sqcnt = s'.engine.sqcnt → s.engine.err = s'.engine.err →
    s.responses = s'.responses →
    ∃ t t', exec i s = .next t ∧ exec i s' = .next t' ∧ t.responses = t'.responses ∧
      t.engine.phase = t'.engine.phase ∧ t.engine.sqcnt = t'.engine.sqcnt ∧ t.engine.err = t'.engine.err ∧
      (i = .squeeze → t.engine.S = s.engine.S ∧ t'.engine.S = s'.engine.S)) ∧
  ∀ s s' : State, s.engine.sqcnt ≠ 0 →
    getByte (P s.engine.S) 0 = getByte (P s'.engine.S) 0 → getByte (P s.engine.S) 1 = getByte (P s'.engine.S) 1 →
    s.engine.phase = s'.engine.phase → s.engine.sqcnt = s'.engine.sqcnt → s.engine.err = s'.engine.err →
    s.responses = s'.responses →
    ∃ t t', exec .squeeze s = .next t ∧ exec .squeeze s' = .next t' ∧ t.responses = t'.responses ∧
      t.engine.phase = t'.engine.phase ∧ t.engine.sqcnt = t'.engine.sqcnt ∧ t.engine.err = t'.engine.err

/-- R58: INIT and WRSTATE, RDSTATE, RDSTATUS and GFMUL are idempotent: repeated with the same operands they leave the same
E, and answer the same. -/
def Obligations.IdempotentCommandsRepeat : Prop :=
  ∀ (s t : State) (i : Instr),
    i = .init ∨ (∃ k v, i = .wrstate k v) ∨ (∃ k, i = .rdstate k) ∨ i = .rdstatus ∨ (∃ a b, i = .gfmul a b) →
    (i = .rdstatus ∨ (∃ a b, i = .gfmul a b) → exec i s = .next t → t.engine = s.engine) ∧
    (exec i s = .next t → ∃ u resp, exec i t = .next u ∧ u.engine = t.engine ∧
      t.responses = s.responses ++ [resp] ∧ u.responses = t.responses ++ [resp])

/-- R66, R215: an instance's step changes no other instance and depends on no other, and every such step completes. -/
def Obligations.InstancesAreIndependent : Prop :=
  ∀ (n : Nat) (j : Fin n) (p p' : Platform n), p'.get j = p.get j →
    ∃ q q', stepInstance j p = .next q ∧ stepInstance j p' = .next q' ∧ q'.get j = q.get j ∧
      (∀ i, i ≠ j → q.get i = p.get i ∧ q'.get i = p'.get i)

/-! ### The grid and the permutation -/

/-- R22: the cell at (r, c) is a nibble of byte (c + 6r)/2, the high one when c is even; setcell writes that cell and no
other; and the 36 cells determine the 18 bytes (R23). -/
def Obligations.CellsArePackedTwoPerByte : Prop :=
  (∀ (S : Grid) (r c : Fin 6) (k : Fin 18), k.val = (c.val + 6 * r.val) / 2 →
    cell S r c = if c.val % 2 = 0 then (getByte S k).extractLsb' 4 4 else (getByte S k).extractLsb' 0 4) ∧
  (∀ (S : Grid) (r c r' c' : Fin 6) (v : Nibble),
    cell (setCell S r c v) r' c' = if r' = r ∧ c' = c then v else cell S r' c') ∧
  ∀ S T : Grid, (∀ r c, cell S r c = cell T r c) → S = T

/-- R120: AddConstants XORs RC[r] XOR IC[i] into cell (i, 0) of every row i and changes no other cell. The last clause is
the spec's example, with its candidate constants (PRESUMED, log entry 1). -/
def Obligations.AddConstantsChangesColumnZero : Prop :=
  (∀ (c : Params) (S : Grid) (r : Fin 12) (i j : Fin 6),
    cell (addConstants c S r) i j = if j = 0 then cell S i j ^^^ (c.rc.get r ^^^ c.ic.get i) else cell S i j) ∧
  addConstants candidate (Vector.replicate 18 0x00) 0 =
    #v[0x10, 0, 0, 0, 0, 0, 0x20, 0, 0, 0x60, 0, 0, 0x70, 0, 0, 0x50, 0, 0]

/-- R121: SubCells replaces every cell through SBOX, whatever its position, and is a bijection on states. The last clause
is the spec's example, with its candidate SBOX (PRESUMED, log entry
1). -/
def Obligations.SubCellsReplacesEveryCell : Prop :=
  (∀ (c : Params) (S : Grid) (i j : Fin 6), cell (subCells c S) i j = c.sbox (cell S i j)) ∧
  (∀ c : Params, Function.Bijective (subCells c)) ∧
  subCells candidate (Vector.replicate 18 0x00) = Vector.replicate 18 0xCC

/-- R122, R128: ShiftRows rotates row i left by i cells, within its 24-bit row word, and leaves row 0. The last clause is
the spec's example. -/
def Obligations.ShiftRowsRotatesRowsByCells : Prop :=
  (∀ (S : Grid) (i j j' : Fin 6), j'.val = (j.val + i.val) % 6 → cell (shiftRows S) i j = cell S i j') ∧
  (∀ (S : Grid) (i : Fin 6), rowWord (shiftRows S) i = (rowWord S i).rotateLeft (4 * i.val)) ∧
  (∀ (S : Grid) (k : Fin 18), k.val < 3 → getByte (shiftRows S) k = getByte S k) ∧
  shiftRows #v[0x01, 0x23, 0x45, 0x01, 0x23, 0x45, 0x01, 0x23, 0x45, 0x01, 0x23, 0x45, 0x01, 0x23, 0x45, 0x01, 0x23, 0x45] =
    #v[0x01, 0x23, 0x45, 0x12, 0x34, 0x50, 0x23, 0x45, 0x01, 0x34, 0x50, 0x12, 0x45, 0x01, 0x23, 0x50, 0x12, 0x34]

/-- R123, R237: every new cell (i, j) is the XOR over k of gfmul(MIX[i][k], old cell (k, j)), all of them old values. The
last clause is the spec's example, with its candidate MIX (PRESUMED, log entry 1). -/
def Obligations.MixColumnsMultipliesEveryOldColumn : Prop :=
  (∀ (c : Params) (S : Grid) (i j : Fin 6),
    cell (mixColumnsSerial c S) i j =
      gfmul c.red ((c.mix.get i).get 0) (cell S 0 j) ^^^ gfmul c.red ((c.mix.get i).get 1) (cell S 1 j) ^^^
      gfmul c.red ((c.mix.get i).get 2) (cell S 2 j) ^^^ gfmul c.red ((c.mix.get i).get 3) (cell S 3 j) ^^^
      gfmul c.red ((c.mix.get i).get 4) (cell S 4 j) ^^^ gfmul c.red ((c.mix.get i).get 5) (cell S 5 j)) ∧
  mixColumnsSerial candidate #v[0x10, 0, 0, 0, 0, 0, 0, 0, 0, 0, 0, 0, 0, 0, 0, 0, 0, 0] =
    #v[0x10, 0, 0, 0x20, 0, 0, 0xC0, 0, 0, 0xD0, 0, 0, 0x10, 0, 0, 0x80, 0, 0]

/-- R124, R125: P applies exactly 12 rounds, round index 0 to 11 in order, each AddConstants, SubCells, ShiftRows and
MixColumnsSerial in this order; and the P of the commands is this permutation with the block's own tables (R44). The last clause is the spec's example P(IV), with its candidate constants (PRESUMED, log entry 1). -/
def Obligations.PermutationIsTwelveRounds : Prop :=
  (∀ (c : Params) (S : Grid) (states : Nat → Grid), states 0 = S →
    (∀ r : Fin 12, states (r.val + 1) =
      mixColumnsSerial c (shiftRows (subCells c (addConstants c (states r.val) r)))) →
    permutation c S = states 12) ∧
  (∀ S : Grid, P S = permutation Config.params S) ∧
  permutation candidate iv =
    #v[0x95, 0xFC, 0x3C, 0xE2, 0x2A, 0x2A, 0x63, 0x2D, 0x6F, 0xEB, 0x4E, 0x0B, 0x62, 0x59, 0x2D, 0x8D, 0x03, 0x29]

/-- R127: AddConstants, ShiftRows and SubCells are bijections for any constants, MixColumnsSerial exactly when MIX is
invertible, and then P is a bijection; the candidate MIX (PRESUMED, log entry 1) is invertible. -/
def Obligations.PermutationIsBijectiveWhenMixIsInvertible : Prop :=
  (∀ (c : Params) (r : Fin 12), Function.Bijective fun S => addConstants c S r) ∧
  Function.Bijective shiftRows ∧
  (∀ c : Params, Function.Bijective (subCells c)) ∧
  (∀ c : Params, Function.Bijective (mixColumnsSerial c) ↔ ∃ N, inverseMatrices c.red c.mix N) ∧
  (∀ (c : Params) (N : Vector (Vector Nibble 6) 6), inverseMatrices c.red c.mix N →
    Function.Bijective (permutation c)) ∧
  ∃ N, inverseMatrices candidate.red candidate.mix N

/-! ### The multiplier -/

/-- R100: xtime doubles within 4 bits and folds an overflow back with RED. The examples are the spec's, with RED = 0x3
(PRESUMED, log entry 1). -/
def Obligations.XtimeDoublesAndFolds : Prop :=
  (∀ red v : Nibble, (v.toNat < 8 → (xtime red v).toNat = 2 * v.toNat) ∧
    (8 ≤ v.toNat → xtime red v = BitVec.ofNat 4 (2 * v.toNat - 16) ^^^ red)) ∧
  xtime 0x3 0x8 = 0x3 ∧ xtime 0x3 0x9 = 0x1

/-- R36, R101: with a nibble read as a polynomial over GF(2), bit k the coefficient of X^k, gfmul(a, b) is the product of
a and b modulo X^4 + p, where p is RED. -/
def Obligations.GfmulIsThePolynomialProduct : Prop :=
  let poly : Nibble → Polynomial (ZMod 2) := fun v => ∑ k : Fin 4, if v.getLsbD k.val then Polynomial.X ^ k.val else 0
  ∀ red a b : Nibble, (Polynomial.X ^ 4 + poly red) ∣ (poly a * poly b - poly (gfmul red a b))

/-- R103: gfmul is commutative, associative and distributes over XOR, 0 absorbs, 1 is neutral and 2 doubles, for every
RED; for the candidate RED (PRESUMED, log entry 1) every nonzero element has an inverse and x has order 15. -/
def Obligations.GfmulIsARingProduct : Prop :=
  (∀ red a b c : Nibble,
    gfmul red a b = gfmul red b a ∧ gfmul red a (b ^^^ c) = gfmul red a b ^^^ gfmul red a c ∧
    gfmul red a 0 = 0 ∧ gfmul red a 1 = a ∧ gfmul red a 2 = xtime red a ∧
    gfmul red (gfmul red a b) c = gfmul red a (gfmul red b c)) ∧
  (∀ a : Nibble, a ≠ 0 → ∃ b, gfmul 0x3 a b = 1) ∧
  (∀ n : Nat, 0 < n → ((xtime 0x3)^[n] 1 = 1 ↔ 15 ∣ n))

/-- R102: the document's double-and-add procedure computes the product, for all 256 operand pairs and every RED. -/
def Obligations.DocumentProcedureComputesTheProduct : Prop :=
  ∀ red a b : Nibble, mulDoc red a b = gfmul red a b

/-- R38: every entry of the eager table is its product, and the table is symmetric. -/
def Obligations.EagerTableHoldsEveryProduct : Prop :=
  ∀ red a b : Nibble, Machine.lookup (multTable red) a b = gfmul red a b ∧
    Machine.lookup (multTable red) a b = Machine.lookup (multTable red) b a

/-- R39, R105: from a verified cache the lazy design returns the product, whether or not it caches short circuits, and
leaves a verified cache that has lost no entry; the cache at power-up holds no entry and is verified. -/
def Obligations.LazyCacheIsUnobservable : Prop :=
  (∀ (red : Nibble) (fillShort : Bool) (t : Cache) (a b : Nibble), cacheVerified red t →
    (lazyMultiply red fillShort t a b).1 = gfmul red a b ∧ cacheVerified red (lazyMultiply red fillShort t a b).2 ∧
    cacheGrows t (lazyMultiply red fillShort t a b).2) ∧
  (∀ a b : Nibble, cacheEntry powerUpCache a b = none) ∧ ∀ red : Nibble, cacheVerified red powerUpCache

/-- R105, R210, R241: the eager table, a cache of one's own and a locked cache all give the product; a cache shared
without a lock is refused, rather than given a value. -/
def Obligations.SafeTableDesignsGiveTheProduct : Prop :=
  ∀ (red : Nibble) (fillShort : Bool) (t : Cache) (a b : Nibble), cacheVerified red t →
    (∀ d : TableDesign, d ≠ .unsynchronisedCache →
      ∃ u, multiplyVia d red fillShort t a b = .next (gfmul red a b, u) ∧ cacheVerified red u) ∧
    multiplyVia .unsynchronisedCache red fillShort t a b = .refused .unsynchronisedSharedCache

/-! ### Hashing -/

/-- R155: PHOTON128 by the indexes of the document's six steps. -/
def Obligations.PhotonFollowsTheSixSteps : Prop :=
  ∀ (c : Params) (m : List Byte),
    let absorbed := (List.range (m.length / 2)).foldl
      (fun S k => permutation c (xorByte (xorByte S 0 (m.getD (2 * k) 0)) 1 (m.getD (2 * k + 1) 0))) iv
    let padded := if m.length % 2 = 1 then xorByte (xorByte absorbed 0 (m.getD (m.length - 1) 0)) 1 0x80
      else xorByte absorbed 0 0x80
    (photon128 c m).length = 16 ∧
    ∀ j : Nat, j < 8 → (photon128 c m)[2 * j]? = some (getByte ((permutation c)^[j + 1] padded) 0) ∧
      (photon128 c m)[2 * j + 1]? = some (getByte ((permutation c)^[j + 1] padded) 1)

/-- R156: the command sequence of HASH m, by index. -/
def Obligations.HashExpandsToItsCommands : Prop :=
  ∀ m : List Byte,
    (hashCommands m).length = 1 + m.length / 2 + 1 + 8 ∧
    (hashCommands m)[0]? = some .init ∧
    (∀ k : Nat, k < m.length / 2 →
      (hashCommands m)[1 + k]? = some (.absorb (m.getD (2 * k) 0) (m.getD (2 * k + 1) 0))) ∧
    (hashCommands m)[1 + m.length / 2]? =
      some (if m.length % 2 = 1 then .pad1 (m.getD (m.length - 1) 0) else .pad0) ∧
    ∀ j : Nat, j < 8 → (hashCommands m)[2 + m.length / 2 + j]? = some .squeeze

/-- R157: from every state, HASH m run without another command between its own answers OK to every command, its 8
SQUEEZE responses give PHOTON128(m), and it ends in DONE with SQCNT = 8 and ERR = 0. -/
def Obligations.HashCommandsComputePhoton128 : Prop :=
  ∀ (m : List Byte) (s : State), ∃ (t : State) (squeezed : List Word),
    run (hashCommands m).length (writeCommands (hashCommands m) s) = .next t ∧
    t.responses = s.responses ++ List.replicate (1 + m.length / 2 + 1) (okWord 0x00 0x00) ++ squeezed ∧
    squeezed.length = 8 ∧ (∀ w ∈ squeezed, responseCode w = 0) ∧
    assembleDigest squeezed = photon128 Config.params m ∧
    t.engine.phase = .done ∧ t.engine.sqcnt = 8 ∧ t.engine.err = none ∧ t.pending = s.pending

/-- R211: a call of hash with a negative length, or a length beyond its buffer, faults. Every other call completes, and
its last 8 responses give PHOTON128 of the first n bytes: R156 and R157, the latter the spec's own inference. -/
def Obligations.HashCallFaultsOnABadLength : Prop :=
  ∀ (n : Int) (buffer : List Byte) (s : State),
    (n < 0 ∨ (buffer.length : Int) < n → Machine.hash n buffer s = .fault .invalidLength) ∧
    (0 ≤ n → n ≤ buffer.length → ∃ (t : State) (squeezed : List Word), Machine.hash n buffer s = .next t ∧
      t.responses = s.responses ++ List.replicate (1 + n.toNat / 2 + 1) (okWord 0x00 0x00) ++ squeezed ∧
      squeezed.length = 8 ∧
      assembleDigest squeezed = photon128 Config.params (buffer.take n.toNat))
end

