-- ==== Sys2Proof/Laws/Decode.lean ====
section
/-! SUPPORT. The fields of the words the encoder writes (R70). -/

namespace Sys2Proof

theorem formatC_getLsbD (o : Nibble) (b0 b1 : Byte) (i : Nat) :
    (formatC o b0 b1).getLsbD i =
      if i < 4 then o.getLsbD i else if i < 8 then false else if i < 16 then b0.getLsbD (i - 8)
      else if i < 24 then b1.getLsbD (i - 16) else false := by
  simp only [formatC, BitVec.getLsbD_append]
  repeat' split
  all_goals first | rfl | omega | simp

@[simp] theorem op_formatC (o : Nibble) (b0 b1 : Byte) : op (formatC o b0 b1) = o := by
  apply BitVec.eq_of_getLsbD_eq
  intro i hi
  rw [op, BitVec.getLsbD_extractLsb', formatC_getLsbD]
  simp [hi]

@[simp] theorem rsv0_formatC (o : Nibble) (b0 b1 : Byte) : rsv0 (formatC o b0 b1) = 0 := by
  apply BitVec.eq_of_getLsbD_eq
  intro i hi
  rw [rsv0, BitVec.getLsbD_extractLsb', formatC_getLsbD]
  simp [show ¬4 + i < 4 by omega, show 4 + i < 8 by omega]

@[simp] theorem d0_formatC (o : Nibble) (b0 b1 : Byte) : d0 (formatC o b0 b1) = b0 := by
  apply BitVec.eq_of_getLsbD_eq
  intro i hi
  rw [d0, BitVec.getLsbD_extractLsb', formatC_getLsbD]
  simp [hi, show ¬8 + i < 4 by omega, show 8 + i < 16 by omega]

@[simp] theorem d1_formatC (o : Nibble) (b0 b1 : Byte) : d1 (formatC o b0 b1) = b1 := by
  apply BitVec.eq_of_getLsbD_eq
  intro i hi
  rw [d1, BitVec.getLsbD_extractLsb', formatC_getLsbD]
  simp [hi, show ¬16 + i < 4 by omega, show ¬16 + i < 8 by omega, show 16 + i < 24 by omega]

@[simp] theorem rsv1_formatC (o : Nibble) (b0 b1 : Byte) : rsv1 (formatC o b0 b1) = 0 := by
  apply BitVec.eq_of_getLsbD_eq
  intro i hi
  rw [rsv1, BitVec.getLsbD_extractLsb', formatC_getLsbD]
  simp [show ¬24 + i < 4 by omega, show ¬24 + i < 8 by omega, show ¬24 + i < 16 by omega, show ¬24 + i < 24 by omega]

@[simp] theorem lowNibble_nibbleByte (n : Nibble) : lowNibble (nibbleByte n) = n := by revert n; decide

/-- A word is its five fields. -/
theorem word_eq_of_fields {v w : Word} (ho : op v = op w) (h0 : rsv0 v = rsv0 w) (hd0 : d0 v = d0 w)
    (hd1 : d1 v = d1 w) (h1 : rsv1 v = rsv1 w) : v = w := by
  apply BitVec.eq_of_getLsbD_eq
  intro i hi
  have bit : ∀ {n : Nat} (start : Nat), v.extractLsb' start n = w.extractLsb' start n → start ≤ i → i < start + n →
      v.getLsbD i = w.getLsbD i := by
    intro n start h hs he
    have := congrArg (fun x => x.getLsbD (i - start)) h
    simpa [show i - start < n by omega, show start + (i - start) = i by omega] using this
  rcases Nat.lt_or_ge i 4 with h | h
  · exact bit 0 ho (by omega) (by omega)
  rcases Nat.lt_or_ge i 8 with h | h
  · exact bit 4 h0 (by omega) (by omega)
  rcases Nat.lt_or_ge i 16 with h | h
  · exact bit 8 hd0 (by omega) (by omega)
  rcases Nat.lt_or_ge i 24 with h | h
  · exact bit 16 hd1 (by omega) (by omega)
  · exact bit 24 h1 (by omega) (by omega)

end Sys2Proof
end

