-- ==== Sys2Proof/Laws/State.lean ====
section
/-! SUPPORT. One lemma per field per update of State and Engine. -/

namespace Sys2Proof.Machine

variable (s : State) (w : Word) (cs : List Instr)

@[simp] theorem respond_engine : (respond w s).engine = s.engine := rfl
@[simp] theorem respond_pending : (respond w s).pending = s.pending := rfl
@[simp] theorem respond_responses : (respond w s).responses = s.responses ++ [w] := rfl

@[simp] theorem resetEngine_engine : (resetEngine s).engine = Engine.reset := rfl
@[simp] theorem resetEngine_pending : (resetEngine s).pending = s.pending := rfl
@[simp] theorem resetEngine_responses : (resetEngine s).responses = s.responses := rfl

@[simp] theorem writeNext_engine : (writeNext w s).engine = s.engine := rfl
@[simp] theorem writeNext_pending : (writeNext w s).pending = .command w :: s.pending := rfl
@[simp] theorem writeNext_responses : (writeNext w s).responses = s.responses := rfl

@[simp] theorem writeCommands_engine : (writeCommands cs s).engine = s.engine := rfl
@[simp] theorem writeCommands_pending :
    (writeCommands cs s).pending = cs.map (fun i => .command (encode i)) ++ s.pending := rfl
@[simp] theorem writeCommands_responses : (writeCommands cs s).responses = s.responses := rfl

@[simp] theorem engineReset_S : Engine.reset.S = Vector.replicate 18 0x00 := rfl
@[simp] theorem engineReset_phase : Engine.reset.phase = .idle := rfl
@[simp] theorem engineReset_sqcnt : Engine.reset.sqcnt = 0 := rfl
@[simp] theorem engineReset_err : Engine.reset.err = none := rfl

@[simp] theorem stateReset_engine : State.reset.engine = Engine.reset := rfl
@[simp] theorem stateReset_pending : State.reset.pending = [] := rfl
@[simp] theorem stateReset_responses : State.reset.responses = [] := rfl

/-- withFetchWord changes only what the host writes next. -/
@[simp] theorem withFetchWord_engine (n v : Nat) : (s.withFetchWord n v).engine = s.engine := rfl
@[simp] theorem withFetchWord_pending (n v : Nat) :
    (s.withFetchWord n v).pending = .command (tableWord n v) :: s.pending := rfl
@[simp] theorem withFetchWord_responses (n v : Nat) : (s.withFetchWord n v).responses = s.responses := rfl

/-- Two states with the same E, pending acts and responses are the same state. -/
theorem state_eq_of_fields {s t : State} (he : s.engine = t.engine) (hp : s.pending = t.pending)
    (hr : s.responses = t.responses) : s = t := by
  cases s; cases t; simp_all

/-- Two engines with the same S, PHASE, SQCNT and ERR are the same engine. -/
theorem engine_eq_of_fields {E F : Engine} (hS : E.S = F.S) (hp : E.phase = F.phase) (hc : E.sqcnt = F.sqcnt)
    (he : E.err = F.err) : E = F := by
  cases E; cases F; simp_all

end Sys2Proof.Machine
end

