-- ==== Sys2Proof/Laws/Ops.lean ====
section
/-! SUPPORT. What each shared operation does, once: completing and failing, the two checks, the response words, the
bytes of S and the nibbles of a byte. -/

namespace Sys2Proof.Machine

/-! ### Responses -/

theorem responseWord_getLsbD (c : BitVec 2) (r0 r1 : Byte) (i : Nat) :
    (responseWord c r0 r1).getLsbD i =
      if i < 2 then c.getLsbD i else if i < 8 then false else if i < 16 then r0.getLsbD (i - 8)
      else if i < 24 then r1.getLsbD (i - 16) else false := by
  simp only [responseWord, BitVec.getLsbD_append]
  repeat' split
  all_goals first | rfl | omega | simp

@[simp] theorem responseCode_responseWord (c : BitVec 2) (r0 r1 : Byte) : responseCode (responseWord c r0 r1) = c := by
  apply BitVec.eq_of_getLsbD_eq
  intro i hi
  rw [responseCode, BitVec.getLsbD_extractLsb', responseWord_getLsbD]
  simp [hi]

@[simp] theorem resultByte0_responseWord (c : BitVec 2) (r0 r1 : Byte) : resultByte0 (responseWord c r0 r1) = r0 := by
  apply BitVec.eq_of_getLsbD_eq
  intro i hi
  rw [resultByte0, BitVec.getLsbD_extractLsb', responseWord_getLsbD]
  simp [hi, show ¬8 + i < 2 by omega, show 8 + i < 16 by omega]

@[simp] theorem resultByte1_responseWord (c : BitVec 2) (r0 r1 : Byte) : resultByte1 (responseWord c r0 r1) = r1 := by
  apply BitVec.eq_of_getLsbD_eq
  intro i hi
  rw [resultByte1, BitVec.getLsbD_extractLsb', responseWord_getLsbD]
  simp [hi, show ¬16 + i < 2 by omega, show ¬16 + i < 8 by omega, show 16 + i < 24 by omega]

theorem errCode_code_ne_zero (c : ErrCode) : c.code ≠ 0 := by cases c <;> decide

theorem errCode_code_injective (c d : ErrCode) (h : c.code = d.code) : c = d := by
  cases c <;> cases d <;> revert h <;> decide

/-! ### The ERR latch (R203) -/

@[simp] theorem latchError_none (c : ErrCode) : latchError none c = some c := rfl
@[simp] theorem latchError_some (d c : ErrCode) : latchError (some d) c = some d := rfl

theorem latchError_ne_none (err : Option ErrCode) (c : ErrCode) : latchError err c ≠ none := by cases err <;> simp

/-! ### Completing and failing -/

/-- Everything a completing command does. -/
theorem complete_next {E' : Engine} {r0 r1 : Byte} {s t : State} (h : complete E' r0 r1 s = .next t) :
    t.engine = E' ∧ t.pending = s.pending ∧ t.responses = s.responses ++ [okResponse r0 r1] := by
  cases h; exact ⟨rfl, rfl, rfl⟩

/-- Everything a failing command does. -/
theorem raiseError_next {c : ErrCode} {s t : State} (h : raiseError c s = .next t) :
    t.engine = { s.engine with err := latchError s.engine.err c } ∧ t.pending = s.pending ∧
      t.responses = s.responses ++ [errorResponse c] := by
  cases h; exact ⟨rfl, rfl, rfl⟩

theorem whenPhase_in {p : Phase} {s : State} (run : Engine → Result) (h : s.engine.phase = p) :
    whenPhase p s run = run s.engine := by simp [whenPhase, h]

theorem whenPhase_out {p : Phase} {s : State} (run : Engine → Result) (h : s.engine.phase ≠ p) :
    whenPhase p s run = raiseError .sequence s := by simp [whenPhase, h]

theorem stateIndex_mapped {k : Byte} (h : k.toNat < 18) : stateIndex k = some ⟨k.toNat, h⟩ := by simp [stateIndex, h]

theorem stateIndex_unmapped {k : Byte} (h : 18 ≤ k.toNat) : stateIndex k = none := by simp [stateIndex, h]

theorem whenMapped_in {k : Byte} {s : State} (run : Fin 18 → Result) (h : k.toNat < 18) :
    whenMapped k s run = run ⟨k.toNat, h⟩ := by simp [whenMapped, stateIndex_mapped h]

theorem whenMapped_out {k : Byte} {s : State} (run : Fin 18 → Result) (h : 18 ≤ k.toNat) :
    whenMapped k s run = raiseError .range s := by simp [whenMapped, stateIndex_unmapped h]

/-! ### The bytes of S -/

@[simp] theorem getByte_setByte_same (S : Grid) (k : Fin 18) (v : Byte) : getByte (setByte S k v) k = v := by
  simp [getByte, setByte, Vector.get_eq_getElem]

theorem getByte_setByte (S : Grid) (k j : Fin 18) (v : Byte) :
    getByte (setByte S k v) j = if j = k then v else getByte S j := by
  simp only [getByte, setByte, Vector.get_eq_getElem, Vector.getElem_set, Fin.ext_iff]
  split <;> split <;> first | rfl | omega

/-- A grid is its 18 bytes (R21). -/
theorem grid_eq_of_bytes {S T : Grid} (h : ∀ k, getByte S k = getByte T k) : S = T :=
  Vector.ext fun k hk => h ⟨k, hk⟩

theorem getByte_ofFn (f : Fin 18 → Byte) (k : Fin 18) : getByte (Vector.ofFn f) k = f k := by
  simp [getByte, Vector.get_eq_getElem]

theorem getByte_xorByte (S : Grid) (k j : Fin 18) (v : Byte) :
    getByte (xorByte S k v) j = if j = k then getByte S k ^^^ v else getByte S j := by
  simp [xorByte, getByte_setByte]

/-! ### The nibbles of a byte -/

@[simp] theorem hi_pack (h l : Nibble) : hi (pack h l) = h := by revert h l; decide

@[simp] theorem lo_pack (h l : Nibble) : lo (pack h l) = l := by revert h l; decide

@[simp] theorem pack_hi_lo (b : Byte) : pack (hi b) (lo b) = b := by revert b; decide

/-- A byte is its two nibbles. -/
theorem byte_eq_of_nibbles {a b : Byte} (hh : hi a = hi b) (hl : lo a = lo b) : a = b := by
  rw [← pack_hi_lo a, ← pack_hi_lo b, hh, hl]

@[simp] theorem hi_xor (a b : Byte) : hi (a ^^^ b) = hi a ^^^ hi b := by
  simp [hi, BitVec.extractLsb'_xor]

@[simp] theorem lo_xor (a b : Byte) : lo (a ^^^ b) = lo a ^^^ lo b := by
  simp [lo, BitVec.extractLsb'_xor]

end Sys2Proof.Machine
end

