-- ==== Sys2Proof/Laws/Gf.lean ====
section
/-! SUPPORT. The multiplier without its loop, and what filling the lazy cache does to its entries. -/

namespace Sys2Proof.Machine

/-- gfmul(a, b) is the XOR over k with b[k] = 1 of xtime^k(a) (R101). -/
theorem gfmul_eq_xor (red a b : Nibble) :
    gfmul red a b = (if b.getLsbD 0 then a else 0) ^^^ (if b.getLsbD 1 then xtime red a else 0) ^^^
      (if b.getLsbD 2 then xtime red (xtime red a) else 0) ^^^
      (if b.getLsbD 3 then xtime red (xtime red (xtime red a)) else 0) := by
  simp only [gfmul, gfmulTurn, List.foldl]
  cases b.getLsbD 0 <;> cases b.getLsbD 1 <;> cases b.getLsbD 2 <;> cases b.getLsbD 3 <;> simp

@[simp] theorem gfmul_zero (red a : Nibble) : gfmul red a 0 = 0 := by simp [gfmul_eq_xor]

/-- Doubling is linear over XOR. -/
theorem xtime_xor (red a b : Nibble) : xtime red (a ^^^ b) = xtime red a ^^^ xtime red b := by
  simp only [xtime, BitVec.shiftLeft_xor_distrib, BitVec.getLsbD_xor]
  apply BitVec.eq_of_getLsbD_eq
  intro i hi
  simp only [BitVec.getLsbD_xor]
  generalize (a <<< 1).getLsbD i = x
  generalize (b <<< 1).getLsbD i = y
  cases a.getLsbD 3 <;> cases b.getLsbD 3 <;> simp <;> cases red.getLsbD i <;> cases x <;> cases y <;> rfl

/-- An operand pair is found again in its place: no two pairs share one. -/
theorem pairIndex_injective {a b a' b' : Nibble} (h : pairIndex a b = pairIndex a' b') : a = a' ∧ b = b' := by
  have h' : 16 * a.toNat + b.toNat = 16 * a'.toNat + b'.toNat := congrArg Fin.val h
  have := a.isLt; have := b.isLt; have := a'.isLt; have := b'.isLt
  exact ⟨BitVec.eq_of_toNat_eq (by omega), BitVec.eq_of_toNat_eq (by omega)⟩

/-- Filling (a, b) writes the product at that pair and at (b, a), and no other entry (R39). -/
theorem cacheEntry_cacheFill (t : Cache) (a b v x y : Nibble) : cacheEntry (cacheFill t a b v) x y =
    if pairIndex x y = pairIndex b a ∨ pairIndex x y = pairIndex a b then some v else cacheEntry t x y := by
  have hv : v.toNat ≤ 15 := by have := v.isLt; omega
  simp only [cacheEntry, cacheFill, Vector.get_eq_getElem, Vector.getElem_set, Fin.ext_iff]
  by_cases h1 : (pairIndex b a).val = (pairIndex x y).val
  · simp [h1, hv]
  · by_cases h2 : (pairIndex a b).val = (pairIndex x y).val
    · simp [h1, h2, hv]
    · simp [h1, h2, Ne.symm h1, Ne.symm h2]

/-- The sentinel is out of range, whatever it is: an entry that holds it holds no product (R39). -/
theorem cacheEntry_powerUpCache (a b : Nibble) : cacheEntry powerUpCache a b = none := by
  simp [cacheEntry, powerUpCache, sentinel, Vector.get_eq_getElem]; omega

end Sys2Proof.Machine
end

