-- ==== Sys2Proof/Laws/PerInstr.lean ====
section
/-! SUPPORT. The family Spelling: how each instruction's word is spelled (R70, R71, R81). -/

namespace Sys2Proof.Laws.Spelling

/-- The opcode of each instruction (R71). -/
def opcode : Instr → Nibble
  | .init => 0x0
  | .absorb _ _ => 0x1
  | .pad0 => 0x2
  | .pad1 _ => 0x3
  | .squeeze => 0x4
  | .permute => 0x5
  | .gfmul _ _ => 0x6
  | .rdstate _ => 0x7
  | .wrstate _ _ => 0x8
  | .rdstatus => 0x9

/-- The instruction's word carries its opcode, and both reserved fields are 0. -/
def Statement (i : Instr) : Prop := op (encode i) = opcode i ∧ rsv0 (encode i) = 0 ∧ rsv1 (encode i) = 0

theorem init : Statement .init := by simp [Statement, encode, opcode]
theorem absorb (b0 b1 : Byte) : Statement (.absorb b0 b1) := by simp [Statement, encode, opcode]
theorem pad0 : Statement .pad0 := by simp [Statement, encode, opcode]
theorem pad1 (b : Byte) : Statement (.pad1 b) := by simp [Statement, encode, opcode]
theorem squeeze : Statement .squeeze := by simp [Statement, encode, opcode]
theorem permute : Statement .permute := by simp [Statement, encode, opcode]
theorem gfmul (a b : Nibble) : Statement (.gfmul a b) := by simp [Statement, encode, opcode]
theorem rdstate (k : Byte) : Statement (.rdstate k) := by simp [Statement, encode, opcode]
theorem wrstate (k v : Byte) : Statement (.wrstate k v) := by simp [Statement, encode, opcode]
theorem rdstatus : Statement .rdstatus := by simp [Statement, encode, opcode]

end Sys2Proof.Laws.Spelling
end

