-- ==== Sys2Proof/Laws/Step.lean ====
section
/-! SUPPORT. Everything a command, an act of the host and a step can do, said once. -/

namespace Sys2Proof.Machine

/-- A command completes or fails: there is no third outcome (R206). -/
theorem exec_completes_or_fails (i : Instr) (s : State) :
    (∃ E' r0 r1, exec i s = complete E' r0 r1 s) ∨ ∃ c, exec i s = raiseError c s := by
  have phased : ∀ (p : Phase) (run : Engine → Result), (∃ E' r0 r1, run s.engine = complete E' r0 r1 s) →
      (∃ E' r0 r1, whenPhase p s run = complete E' r0 r1 s) ∨ ∃ c, whenPhase p s run = raiseError c s := by
    intro p run h
    by_cases hp : s.engine.phase = p
    · exact .inl (by rw [whenPhase_in run hp]; exact h)
    · exact .inr ⟨_, whenPhase_out run hp⟩
  have mapped : ∀ (k : Byte) (run : Fin 18 → Result), (∀ j, ∃ E' r0 r1, run j = complete E' r0 r1 s) →
      (∃ E' r0 r1, whenMapped k s run = complete E' r0 r1 s) ∨ ∃ c, whenMapped k s run = raiseError c s := by
    intro k run h
    rcases Nat.lt_or_ge k.toNat 18 with hk | hk
    · exact .inl (by rw [whenMapped_in run hk]; exact h _)
    · exact .inr ⟨_, whenMapped_out run hk⟩
  cases i with
  | init => exact .inl ⟨_, _, _, rfl⟩
  | absorb b0 b1 => unfold exec execAbsorb; exact phased _ _ ⟨_, _, _, rfl⟩
  | pad0 => unfold exec execPad0; exact phased _ _ ⟨_, _, _, rfl⟩
  | pad1 b => unfold exec execPad1; exact phased _ _ ⟨_, _, _, rfl⟩
  | squeeze => unfold exec execSqueeze; exact phased _ _ ⟨_, _, _, rfl⟩
  | permute => exact .inl ⟨_, _, _, rfl⟩
  | gfmul a b => exact .inl ⟨_, _, _, rfl⟩
  | rdstate k => unfold exec execRdstate; exact mapped _ _ fun _ => ⟨_, _, _, rfl⟩
  | wrstate k v => unfold exec execWrstate; exact mapped _ _ fun _ => ⟨_, _, _, rfl⟩
  | rdstatus => exact .inl ⟨_, _, _, rfl⟩

/-- A word executes its command or raises ILLEGAL. -/
theorem execWord_ok {w : Word} {i : Instr} (h : decode w = .ok i) (s : State) : execWord w s = exec i s := by
  simp [execWord, h]

theorem execWord_error {w : Word} {cause : IllegalCause} (h : decode w = .error cause) (s : State) :
    execWord w s = raiseError .illegal s := by
  simp [execWord, h]

/-- A step with an act pending takes it. -/
theorem step_of_pending_cons {s : State} {e : HostEvent} {rest : List HostEvent} (h : s.pending = e :: rest) :
    step s = takeEvent e { s with pending := rest } := by
  simp [step, h]

/-- Everything a step that answers next can have done. -/
theorem step_cases {s t : State} (h : step s = .next t) :
    (s.pending = [] ∧ t = s) ∨
      ∃ e rest, s.pending = e :: rest ∧ takeEvent e { s with pending := rest } = .next t := by
  match hp : s.pending with
  | [] => simp only [step, hp, idle] at h; cases h; exact .inl ⟨rfl, rfl⟩
  | e :: rest => rw [step_of_pending_cons hp] at h; exact .inr ⟨e, rest, rfl, h⟩

/-- A run is its first step and the run from there. -/
theorem run_succ_of_step {s t : State} (h : step s = .next t) (k : Nat) : run (k + 1) s = run k t := by
  simp [run, h]

/-- Runs compose. -/
theorem run_add {s t : State} {j : Nat} (h : run j s = .next t) (k : Nat) : run (j + k) s = run k t := by
  induction j generalizing s with
  | zero => cases h; simp
  | succ j ih =>
    rw [Nat.add_right_comm]
    simp only [run] at h ⊢
    cases hs : step s with
    | next u => simp only [hs] at h ⊢; exact ih h
    | fault r => simp [hs] at h
    | refused r => simp [hs] at h

end Sys2Proof.Machine
end

