-- ==== Sys2Proof/Machine/Timing.lean ====
section
/-! DEFINITION. The latency of a command (R244), as far as the spec gives one: which of the two open parameters bounds
it.  No step reads it (R244: "no rule depends on"), and no bound on either parameter is stated. -/

namespace Sys2Proof.Machine

/-- Which parameter bounds a command (R244). -/
inductive LatencyClass where
  /-- LAT_PERM, the cycles for one P. -/
  | perm
  /-- LAT_CMD, for every command that applies no P. -/
  | cmd
  deriving DecidableEq, Repr

/-- LAT_PERM bounds ABSORB, PAD0, PAD1, PERMUTE and every SQUEEZE with SQCNT > 0; LAT_CMD every other (R244). -/
def latencyClass (i : Instr) (E : Engine) : LatencyClass :=
  match i with
  | .init => .cmd
  | .absorb _ _ => .perm
  | .pad0 => .perm
  | .pad1 _ => .perm
  | .squeeze => if 0 < E.sqcnt.toNat then .perm else .cmd
  | .permute => .perm
  | .gfmul _ _ => .cmd
  | .rdstate _ => .cmd
  | .wrstate _ _ => .cmd
  | .rdstatus => .cmd

/-- The open parameter that bounds the command i, spelled by w, when the block accepts it in E after the acts `past` of
the host. It may depend on the operands, those inside P among them, and on the whole history (R245). -/
def latencyBound (i : Instr) (w : Word) (E : Engine) (past : List HostEvent) : Nat :=
  match latencyClass i E with
  | .perm => Config.latPerm E w past
  | .cmd => Config.latCmd E w past

end Sys2Proof.Machine
end

