-- ==== Sys2Proof/Tests/Slice0.lean ====
section
/-! SUPPORT. The model's own tests. Every expected value is the spec's: the words of 30_encoding.md R81 and R84, the
vectors of 95_test_vectors.md sections 2.1 to 2.6 (named as there), and the examples of the command rules; values marked
(cand) there use the candidate constants.  Then one witness for each statement that has hypotheses. -/

namespace Sys2Proof.Tests

open Sys2Proof.Machine

/-! ### Helpers -/

/-- A state with these values, S all zero, and these acts pending. -/
def sample (phase : Phase) (sqcnt : BitVec 4) (err : Option ErrCode) (pending : List HostEvent) : State :=
  { engine := { S := Vector.replicate 18 0, phase := phase, sqcnt := sqcnt, err := err }, pending := pending, responses := [] }

/-- The same with S = IV, its first two bytes 0xAB and 0x68. -/
def sampleWithPair (phase : Phase) (sqcnt : BitVec 4) : State :=
  { engine := { S := setByte (setByte iv 0 0xAB) 1 0x68, phase := phase, sqcnt := sqcnt, err := none },
    pending := [], responses := [] }

/-- The call answers a next state that passes the check. -/
def after (o : Result) (check : State → Bool) : Bool :=
  match o with
  | .next t => check t
  | .fault _ => false
  | .refused _ => false

/-- One step after reset with this word written first. -/
def firstStep (w : Nat) : Result := step (State.reset.withFetchWord 32 w)

/-- The response and STATUS after that step. -/
def firstAnswer (w : Nat) (resp : Word) (st : BitVec 16) : Bool :=
  after (firstStep w) fun t => t.responses = [resp] && status t.engine = st

/-! ### WellFormed smoke: an ill-formed line for each check (R81) -/

theorem test_wellFormed_takes_absorb : (AsmLine.command .absorb [.ascii 'a', .num 0xFF]).wellFormed = true := by decide
theorem test_wellFormed_takes_gfmul_bound : (AsmLine.command .gfmul [.num 0xF, .num 0]).wellFormed = true := by decide
theorem test_wellFormed_refuses_missing_operand : (AsmLine.command .absorb [.num 1]).wellFormed = false := by decide
theorem test_wellFormed_refuses_extra_operand : (AsmLine.command .init [.num 0]).wellFormed = false := by decide
theorem test_wellFormed_refuses_wide_byte : (AsmLine.command .pad1 [.num 0x100]).wellFormed = false := by decide
theorem test_wellFormed_refuses_wide_nibble : (AsmLine.command .gfmul [.num 0x10, .num 1]).wellFormed = false := by decide
theorem test_wellFormed_refuses_non_ascii :
    (AsmLine.command .pad1 [.ascii (Char.ofNat 233)]).wellFormed = false := by decide

/-! ### Decoding: a word of each row, bit by bit from R70 and R71: {RSV1, D1, D0, RSV0, OP} -/

theorem test_decode_init : decode 0b00000000_00000000_00000000_0000_0000 = .ok .init := by decide
theorem test_decode_absorb : decode 0b00000000_01100010_01100001_0000_0001 = .ok (.absorb 0x61 0x62) := by decide
theorem test_decode_pad0 : decode 0b00000000_00000000_00000000_0000_0010 = .ok .pad0 := by decide
theorem test_decode_pad1 : decode 0b00000000_00000000_01100011_0000_0011 = .ok (.pad1 0x63) := by decide
theorem test_decode_squeeze : decode 0b00000000_00000000_00000000_0000_0100 = .ok .squeeze := by decide
theorem test_decode_permute : decode 0b00000000_00000000_00000000_0000_0101 = .ok .permute := by decide
theorem test_decode_gfmul : decode 0b00000000_00100101_00110111_0000_0110 = .ok (.gfmul 0x7 0x5) := by decide
theorem test_decode_rdstate : decode 0b00000000_00000000_00010001_0000_0111 = .ok (.rdstate 17) := by decide
theorem test_decode_wrstate : decode 0b00000000_10101011_00000101_0000_1000 = .ok (.wrstate 5 0xAB) := by decide
theorem test_decode_rdstatus : decode 0b00000000_00000000_00000000_0000_1001 = .ok .rdstatus := by decide
theorem test_decode_unassigned : decode 0x0000000F = .error .unassignedOpcode := by decide
theorem test_decode_reserved_outranks : decode 0xFF0000FF = .error .reservedBits := by decide
theorem test_decode_must_be_zero : decode 0x00010003 = .error .mustBeZero := by decide

/-- R81's words. -/
theorem test_encode_wrstate : encode (.wrstate 0 0x80) = 0x00800008 := by decide
theorem test_encode_gfmul : encode (.gfmul 0x7 0x5) = 0x00050706 := by decide
/-- R55: D0 is transfer byte 1 and D1 transfer byte 2. -/
theorem test_transfer : decodeBytes [0x01, 0x61, 0x62, 0x00, 0x09] = some (.ok (.absorb 0x61 0x62), [0x09]) := by decide
theorem test_table_word : decodeTableWord 32 0x00001107 = some (.rdstate 17) := by decide
theorem test_table_word_short : decodeTableWord 8 0xFF01 = some (.absorb 0 0) := by decide

/-- R81's lines. -/
theorem test_text_absorb : assembleText "ABSORB 'a', 'b'".toList = some (.absorb 0x61 0x62) := by decide
theorem test_text_wrstate : assembleText "WRSTATE 0, 0x80".toList = some (.wrstate 0 0x80) := by decide
theorem test_text_gfmul_rejected : assembleText "GFMUL 0x17, 0x5".toList = none := by decide

/-! ### One step of each command -/

/-- INIT clears ERR and abandons a hash (2.6, last rows). -/
theorem test_init : after (exec .init (sample .squeeze 2 (some .range) [])) (fun t =>
    t.engine.S = #v[0, 0, 0, 0, 0, 0, 0, 0, 0, 0, 0, 0, 0, 0, 0, 0x20, 0x10, 0x10] && status t.engine = 0x01 &&
      t.responses = [0x00000000]) := by decide
/-- 2.6: ABSORB from reset. -/
theorem test_absorb_in_idle : firstAnswer 0x00626101 0x00000002 0x80 := by decide
theorem test_absorb_keeps_phase : after (exec (.absorb 1 2) (sample .absorb 0 none [])) (fun t =>
    status t.engine = 0x01 && t.responses = [0x00000000]) := by decide
/-- R152, 2.4: STATUS after INIT; PAD0. -/
theorem test_pad0 : after (exec .pad0 (sample .absorb 0 none [])) (fun t =>
    status t.engine = 0x02 && t.responses = [0x00000000]) := by decide
/-- 2.6: PAD0 in DONE. -/
theorem test_pad0_in_done : after (exec .pad0 (sample .done 8 none [])) (fun t =>
    status t.engine = 0xA3 && t.responses = [0x00000002]) := by decide
theorem test_pad1 : after (exec (.pad1 0x63) (sample .absorb 0 none [])) (fun t =>
    status t.engine = 0x02 && t.responses = [0x00000000]) := by decide
/-- P4, row 6: PAD1 in SQUEEZE. -/
theorem test_pad1_in_squeeze : after (exec (.pad1 5) (sample .squeeze 0 none [])) (fun t =>
    status t.engine = 0x82 && t.responses = [0x00000002]) := by decide
/-- R154's example: the first pair is S[0], S[1], unpermuted. -/
theorem test_squeeze_first : after (exec .squeeze (sampleWithPair .squeeze 0)) (fun t =>
    t.engine.S = (sampleWithPair .squeeze 0).engine.S && status t.engine = 0x06 && t.responses = [0x0068AB00]) := by decide
/-- 2.4: the 8th SQUEEZE gives STATUS 0x23. -/
theorem test_squeeze_eighth : after (exec .squeeze (sample .squeeze 7 none [])) (fun t => status t.engine = 0x23) := by
  decide
theorem test_permute_in_idle : after (firstStep 0x00000005) (fun t =>
    status t.engine = 0x00 && t.responses = [0x00000000]) := by decide
/-- 2.2: any RED. -/
theorem test_gfmul_zero : after (exec (.gfmul 0 9) (sample .idle 0 none [])) (fun t => t.responses = [0x00000000]) := by
  decide
theorem test_gfmul_identity : after (exec (.gfmul 0xB 1) (sample .idle 0 none [])) (fun t =>
    t = { sample .idle 0 none [] with responses := [0x00000B00] }) := by decide
/-- 2.5: RDSTATE 15 after INIT, and RDSTATE 18 from reset. -/
theorem test_rdstate : after (exec (.rdstate 15) (sampleWithPair .absorb 0)) (fun t => t.responses = [0x00002000]) := by
  decide
theorem test_rdstate_range : firstAnswer 0x00001207 0x00000003 0xC0 := by decide
/-- 2.5: WRSTATE 0, 0xFF and WRSTATE 18, 0x00 from reset. -/
theorem test_wrstate : after (firstStep 0x00FF0008) (fun t =>
    t.engine.S = #v[0xFF, 0, 0, 0, 0, 0, 0, 0, 0, 0, 0, 0, 0, 0, 0, 0, 0, 0] && t.responses = [0x00000000]) := by decide
theorem test_wrstate_range : firstAnswer 0x00001208 0x00000003 0xC0 := by decide
/-- P2, row 13: RDSTATUS after a 9th SQUEEZE. -/
theorem test_rdstatus : after (exec .rdstatus (sample .done 8 (some .sequence) [])) (fun t =>
    t.responses = [0x0000A300] && t.engine.err = some .sequence) := by decide
/-- 2.6: ERR keeps the first code; 2.1: an ILLEGAL word. -/
theorem test_err_is_sticky : after (exec .squeeze (sample .idle 0 (some .range) [])) (fun t =>
    t.responses = [0x00000002] && status t.engine = 0xC0) := by decide
theorem test_illegal_word : firstAnswer 0x00000011 0x00000001 0x40 := by decide
/-- R235: no effect and no response. -/
theorem test_reset_cuts_command :
    after (step (sample .squeeze 3 (some .range) [.commandCutByReset 0x00000004])) (fun t => t = sample .idle 0 none []) := by
  decide
/-- R211. -/
theorem test_hash_negative_length : Machine.hash (-1) [] (sample .idle 0 none []) = .fault .invalidLength := rfl

/-! ### The multiplier and the permutation (sections 2.2 and 2.3; the candidate constants but for V-SR2) -/

theorem test_gfmul_square : gfmul 0x3 0xF 0xF = 0xA := by decide
theorem test_mulDoc_trace : mulDoc 0x3 0x7 0x5 = 0x8 := by decide
theorem test_multTable : Machine.lookup (multTable 0x3) 0x9 0xE = 0x7 := by decide +kernel
theorem test_V_AC0 : addConstants candidate (Vector.replicate 18 0) 0 =
    #v[0x10, 0, 0, 0, 0, 0, 0x20, 0, 0, 0x60, 0, 0, 0x70, 0, 0, 0x50, 0, 0] := by decide
theorem test_V_SC1 : subCells candidate #v[0x01, 0x23, 0x45, 0x67, 0x89, 0xAB, 0xCD, 0xEF, 0, 0, 0, 0, 0, 0, 0, 0, 0, 0] =
    #v[0xC5, 0x6B, 0x90, 0xAD, 0x3E, 0xF8, 0x47, 0x12, 0xCC, 0xCC, 0xCC, 0xCC, 0xCC, 0xCC, 0xCC, 0xCC, 0xCC, 0xCC] := by
  decide
theorem test_V_SR2 :
    shiftRows #v[0x00, 0x01, 0x02, 0x03, 0x04, 0x05, 0x06, 0x07, 0x08, 0x09, 0x0A, 0x0B, 0x0C, 0x0D, 0x0E, 0x0F, 0x10, 0x11] =
      #v[0x00, 0x01, 0x02, 0x30, 0x40, 0x50, 0x07, 0x08, 0x06, 0xA0, 0xB0, 0x90, 0x0E, 0x0C, 0x0D, 0x10, 0xF1, 0x01] := by
  decide
theorem test_V_MC3 : mixColumnsSerial candidate #v[0, 0, 0, 0, 0, 0, 0, 0, 0, 0, 0, 0, 0, 0, 0, 0, 0, 0x01] =
    #v[0, 0, 0x02, 0, 0, 0x0C, 0, 0, 0x0D, 0, 0, 0x01, 0, 0, 0x08, 0, 0, 0x08] := by decide
theorem test_V_MC6 :
    mixColumnsSerial candidate
        #v[0x00, 0x01, 0x02, 0x03, 0x04, 0x05, 0x06, 0x07, 0x08, 0x09, 0x0A, 0x0B, 0x0C, 0x0D, 0x0E, 0x0F, 0x10, 0x11] =
      #v[0x0F, 0x22, 0x2E, 0x0E, 0xCD, 0xC5, 0x05, 0xD8, 0xD2, 0x06, 0x18, 0x15, 0x01, 0x8D, 0x8E, 0x0E, 0x8D, 0x8B] := by
  decide +kernel
theorem test_V_R0 : photonRound candidate (Vector.replicate 18 0) 0 =
    #v[0xCE, 0xD8, 0xA5, 0x5B, 0x28, 0xE4, 0x41, 0xA7, 0xE2, 0x21, 0x77, 0xFD, 0xDE, 0xF6, 0xF4, 0x4A, 0x2A, 0xD0] := by
  decide +kernel

/-- R244: the first SQUEEZE is a LAT_CMD command and a later one a LAT_PERM command. -/
theorem test_latency_of_squeeze : latencyClass .squeeze (sample .squeeze 0 none []).engine = .cmd ∧
    latencyClass .squeeze (sample .squeeze 1 none []).engine = .perm := by decide
/-- R244, R245: PERMUTE's bound is LAT_PERM of the operands and the history. -/
theorem test_latency_reads_operands_and_history (E : Engine) (past : List HostEvent) :
    latencyBound .permute 0x00000005 E past = Config.latPerm E 0x00000005 past := rfl

/-! ### Witnesses: a concrete case that meets each statement's hypotheses together -/

theorem witness_EncodeOfDecodeIsTheWord :
    decode 0x00253706 = .ok (.gfmul 7 5) ∧ decode 0x00800008 = .ok (.wrstate 0 0x80) := by decide
theorem witness_OpcodeTableIsTheDecoder : decode 0x00001107 = .ok (.rdstate 17) ∧
    (⟨.rdstate, 0x00000007, 0xFFFF00FF⟩ : OpcodeRow) ∈ opcodeTable ∧
    (⟨.rdstate, 0x00000007, 0xFFFF00FF⟩ : OpcodeRow).spells 0x00001107 := by
  unfold OpcodeRow.spells; decide
theorem witness_IllegalIsRaisedForItsCausesOnly :
    (sample .idle 0 none [.command 0x0A]).pending = .command 0x0A :: [] ∧ decode 0x0A = .error .unassignedOpcode := by
  decide
theorem witness_AssemblerTakesWellFormedLinesOnly : 0xF < 0x10 ∧
    (AsmLine.command .wrstate [.num 17, .num 255]).wellFormed = true := by decide
theorem witness_StepRunsTheDecodedCommand :
    (sample .idle 0 none [.command 0x00000005, .reset]).pending = .command 0x00000005 :: [.reset] ∧
      decode 0x00000005 = .ok .permute := by decide
theorem witness_IdleStepKeepsTheState : (sample .done 8 none []).pending = [] := by decide
theorem witness_EveryCommandReturnsOneResponse :
    (sample .idle 0 none [.command 0xFFFFFFFF]).pending = .command 0xFFFFFFFF :: [] := by decide
theorem witness_ResetSetsEveryField : (sample .done 8 none [.reset]).pending = .reset :: [] := by decide
theorem witness_ResetDuringACommandUndoesIt :
    (sample .done 8 none [.commandCutByReset 5]).pending = .commandCutByReset 5 :: [] := by decide
/-- Both parts: a failing command, and INIT clearing ERR. -/
theorem witness_FailingCommandsOnlyLatchErr :
    after (step (sample .idle 0 none [.command 0x00000004])) (fun t =>
      t = { sample .idle 0 (some .sequence) [] with responses := [0x00000002] }) ∧ responseCode 0x00000002 ≠ 0 ∧
    after (step (sample .idle 0 (some .range) [.command 0x00000000])) (fun t =>
      t.engine.err ≠ (sample .idle 0 (some .range) [.command 0x00000000]).engine.err) := by decide
theorem witness_SequenceIsRaisedOutOfPhaseOnly :
    (sample .idle 0 none []).engine.phase ≠ .absorb ∧ (sample .idle 0 none []).engine.phase ≠ .squeeze ∧
      (sample .absorb 0 none []).engine.phase = .absorb ∧ (sample .squeeze 0 none []).engine.phase = .squeeze := by decide
/-- The boundary of RDSTATE's and WRSTATE's index, for the three statements about it. -/
theorem witness_RangeIsRaisedFromIndexEighteenOn : 18 ≤ (18 : Byte).toNat ∧ 18 ≤ (255 : Byte).toNat ∧ (17 : Byte).toNat < 18 := by
  decide
theorem witness_RdstateReadsOneByte : 18 ≤ (18 : Byte).toNat ∧ (17 : Byte).toNat < 18 := by decide
theorem witness_WrstateWritesOneByte : 18 ≤ (18 : Byte).toNat ∧ (17 : Byte).toNat < 18 := by decide
/-- One word for each level of R205, with the code each expects. -/
theorem witness_FirstCauseInPriorityOrderIsReported :
    (sample .squeeze 0 none [.command 0x00000102]).pending = .command 0x00000102 :: [] ∧
    expectedCode 0x00000011 .idle = 1 ∧ expectedCode 0x00000102 .squeeze = 1 ∧ expectedCode 0x00000001 .idle = 2 ∧
    expectedCode 0x00001207 .idle = 3 ∧ expectedCode 0x00001107 .idle = 0 := by decide
theorem witness_ErrHoldsTheFirstErrorOfARun :
    (sample .idle 0 none [.command 0x0000C807, .command 0x00000004]).engine.err = none ∧
    (∀ w ∈ [(0x0000C807 : Word), 0x00000004], w ≠ 0x00000000) ∧
    (sample .idle 0 none [.command 0x0000C807, .command 0x00000004]).pending =
      [(0x0000C807 : Word), 0x00000004].map .command ++ [] ∧
    after (run 2 (sample .idle 0 none [.command 0x0000C807, .command 0x00000004])) (fun t =>
      status t.engine = 0xC0 && t.responses = [0x00000003, 0x00000002]) := by
  refine ⟨by decide, by simp, by decide, by decide⟩
theorem witness_ErrChangesNoOtherCommand :
    sameButErr (sample .idle 0 none [.command 0x00000004]) (sample .idle 0 (some .range) [.command 0x00000004]) ∧
    ∀ rest, (sample .idle 0 none [.command 0x00000004]).pending ≠ .command 0x00000009 :: rest := by
  refine ⟨⟨rfl, rfl, rfl, rfl, rfl⟩, fun rest h => ?_⟩
  have hw : HostEvent.command 0x00000004 = .command 0x00000009 := (List.cons.inj h).1
  exact absurd hw (by decide)
/-- Each writer of PHASE and SQCNT that the statements name takes a step. -/
theorem witness_PhaseIsWrittenByItsWritersOnly :
    after (step (sample .idle 0 none [.command 0x00000000])) (fun t => t.engine.phase = .absorb) ∧
    after (step (sample .absorb 0 none [.command 0x00000002])) (fun t => t.engine.phase = .squeeze) ∧
    after (step (sample .squeeze 7 none [.command 0x00000004])) (fun t => t.engine.phase = .done) ∧
    after (step (sample .squeeze 7 none [.reset])) (fun t => t.engine.phase = .idle) := by decide
theorem witness_SqcntIsWrittenByItsWritersOnly :
    after (step (sample .absorb 0 none [.command 0x00006303])) (fun t => t.engine.sqcnt = 0) ∧
    after (step (sample .squeeze 6 none [.command 0x00000004])) (fun t => t.engine.sqcnt = 7) ∧
    after (step (sample .done 8 none [.commandCutByReset 0])) (fun t => t.engine.sqcnt = 0) := by decide
theorem witness_OnlyInitLeavesIdle :
    (sample .idle 0 none [.command 0x00000001]).engine.phase = .idle ∧
    (sample .idle 0 none [.command 0x00000001]).pending = [(0x00000001 : Word)].map .command ++ [] ∧
    (∀ w ∈ [(0x00000001 : Word)], w ≠ 0x00000000) ∧
    after (run 1 (sample .idle 0 none [.command 0x00000001])) (fun t =>
      status t.engine = 0x80 && t.responses = [0x00000002]) := by
  refine ⟨by decide, by decide, by simp, by decide⟩
theorem witness_EveryStepKeepsInvariant : Inv (sample .squeeze 7 none [.command 0x00000004]) ∧
    after (step (sample .squeeze 7 none [.command 0x00000004])) (fun t => phaseCountsAgree t.engine) := by
  exact ⟨⟨by decide, fun w hw => absurd hw List.not_mem_nil⟩, by decide⟩
theorem witness_StatusShowsPhaseSqcntErr : phaseCountsAgree (sample .done 8 none []).engine = true := by decide
theorem witness_AbsorbXorsABlockAndPermutes :
    (sample .absorb 0 none []).engine.phase = .absorb ∧ (sample .done 8 none []).engine.phase ≠ .absorb := by decide
theorem witness_Pad0EndsAnEvenMessage :
    (sample .absorb 0 none []).engine.phase = .absorb ∧ (sample .idle 0 none []).engine.phase ≠ .absorb := by decide
theorem witness_Pad1EndsAnOddMessage :
    (sample .absorb 0 none []).engine.phase = .absorb ∧ (sample .squeeze 0 none []).engine.phase ≠ .absorb := by decide
theorem witness_SqueezeEmitsTheNextPair :
    (sample .squeeze 0 none []).engine.phase = .squeeze ∧ (sample .squeeze 7 none []).engine.phase = .squeeze ∧
      (sample .done 8 none []).engine.phase ≠ .squeeze := by decide
/-- encodedAs: for each command a word that its row spells and, where one exists, one of its opcode that it does not. -/
theorem witness_encodedAs :
    (0x00FFFF01#32).extractLsb' 0 4 = 1 ∧ 0x00FFFF01#32 &&& 0xFF0000FF = 0x00000001 ∧
    (0x00000102#32).extractLsb' 0 4 = 2 ∧ 0x00000102#32 &&& 0xFFFFFFFF ≠ 0x00000002 := by decide
theorem witness_RdstatusReadsStatus :
    (sample .done 8 (some .sequence) []).engine.phase = .done ∧ (sample .done 8 (some .sequence) []).engine.sqcnt = 8 ∧
      (sample .done 8 (some .sequence) []).engine.err = some .sequence ∧ (sample .done 8 none []).engine.err = none := by
  decide
theorem witness_DebugCommandsArePhaseFree :
    (Instr.rdstate 18 = .permute ∨ (∃ a b, Instr.rdstate 18 = .gfmul a b) ∨ (∃ k, Instr.rdstate 18 = .rdstate k) ∨
      (∃ k v, Instr.rdstate 18 = .wrstate k v) ∨ Instr.rdstate 18 = .rdstatus) := .inr (.inr (.inl ⟨18, rfl⟩))
theorem witness_AnyStateCanBeWrittenPermutedAndRead : (sample .idle 0 none []).pending = [] := by decide
theorem witness_SpongeCommandsAnswerFromTheRatePart :
    getByte (sampleWithPair .squeeze 0).engine.S 0 = getByte (setByte (sampleWithPair .squeeze 0).engine.S 2 0xFF) 0 ∧
    getByte (sampleWithPair .squeeze 0).engine.S 1 = getByte (setByte (sampleWithPair .squeeze 0).engine.S 2 0xFF) 1 ∧
    (sampleWithPair .squeeze 0).engine.sqcnt = 0 := by decide
/-- Two states that share S, so that their P(S) agree, and differ in what is pending. -/
theorem witness_SpongeCommandsAnswerFromTheRatePart_later :
    (sample .squeeze 3 none []).engine.sqcnt ≠ 0 ∧
    getByte (P (sample .squeeze 3 none []).engine.S) 0 = getByte (P (sample .squeeze 3 none [.reset]).engine.S) 0 ∧
    getByte (P (sample .squeeze 3 none []).engine.S) 1 = getByte (P (sample .squeeze 3 none [.reset]).engine.S) 1 :=
  ⟨by decide, rfl, rfl⟩
theorem witness_IdempotentCommandsRepeat : after (exec (.wrstate 18 0) (sample .idle 0 none [])) (fun t =>
    after (exec (.wrstate 18 0) t) fun u => u.engine = t.engine) := by decide
theorem witness_InstancesAreIndependent :
    (#v[sample .idle 0 none [], sample .done 8 none []] : Platform 2).get 0 =
      (#v[sample .idle 0 none [], sample .absorb 0 none []] : Platform 2).get 0 := by decide
theorem witness_CellsArePackedTwoPerByte : ((17 : Fin 18).val = ((5 : Fin 6).val + 6 * (5 : Fin 6).val) / 2) ∧
    ((0 : Fin 18).val = ((1 : Fin 6).val + 6 * (0 : Fin 6).val) / 2) := by decide
theorem witness_ShiftRowsRotatesRowsByCells : (4 : Fin 6).val = ((5 : Fin 6).val + (5 : Fin 6).val) % 6 ∧
    (2 : Fin 18).val < 3 := by decide
theorem witness_PermutationIsTwelveRounds : ∃ states : Nat → Grid, states 0 = iv ∧ ∀ r : Fin 12, states (r.val + 1) =
    mixColumnsSerial candidate (shiftRows (subCells candidate (addConstants candidate (states r.val) r))) := by
  refine ⟨fun n => Nat.rec iv (fun k S => if h : k < 12 then photonRound candidate S ⟨k, h⟩ else S) n, rfl, fun r => ?_⟩
  simp only [r.isLt, dif_pos]
  rfl
/-- The inverse of the candidate MIX, worked out by hand over GF(16) with RED = 0x3. -/
def candidateMixInverse : Vector (Vector Nibble 6) 6 :=
  #v[#v[0x8, 0x2, 0x3, 0x3, 0x2, 0x8],
     #v[0x8, 0xB, 0xE, 0xD, 0xF, 0x1],
     #v[0x1, 0xA, 0x3, 0xB, 0x5, 0xD],
     #v[0xD, 0x8, 0x8, 0xF, 0x9, 0xC],
     #v[0xC, 0x6, 0x2, 0x1, 0x5, 0x2],
     #v[0x2, 0x8, 0x5, 0x8, 0x2, 0x1]]
theorem witness_PermutationIsBijectiveWhenMixIsInvertible :
    inverseMatrices candidate.red candidate.mix candidateMixInverse := by unfold inverseMatrices; decide
theorem witness_XtimeDoublesAndFolds : (7 : Nibble).toNat < 8 ∧ 8 ≤ (8 : Nibble).toNat := by decide
theorem witness_GfmulIsARingProduct : (0xF : Nibble) ≠ 0 ∧ 0 < 15 := by decide
/-- A cache that holds nothing yet, with 0xFF for the sentinel (R39's example). -/
theorem witness_LazyCacheIsUnobservable : cacheVerified 0x3 (Vector.replicate 256 0xFF) := by
  have empty : ∀ a b : Nibble, cacheEntry (Vector.replicate 256 0xFF) a b = none := by
    intro a b; simp [cacheEntry, Vector.get_eq_getElem]
  exact fun a b => ⟨fun v h => absurd ((empty a b).symm.trans h) (by simp), (empty a b).trans (empty b a).symm⟩
theorem witness_SafeTableDesignsGiveTheProduct : cacheVerified 0x3 (Vector.replicate 256 0xFF) ∧
    TableDesign.lockedCache ≠ .unsynchronisedCache := ⟨witness_LazyCacheIsUnobservable, by decide⟩
theorem witness_HashExpandsToItsCommands : 0 < [(0x61 : Byte), 0x62, 0x63].length / 2 ∧
    hashCommands [0x61, 0x62, 0x63] = .init :: .absorb 0x61 0x62 :: .pad1 0x63 :: List.replicate 8 .squeeze := by decide
theorem witness_HashCallFaultsOnABadLength : (-1 : Int) < 0 ∧ (([] : List Byte).length : Int) < 1 ∧ (0 : Int) ≤ 0 ∧
    (0 : Int) ≤ ([] : List Byte).length := by decide

end Sys2Proof.Tests
end

section
/-! SUPPORT. The scope family (spec 00_scope.md): every step answers a next state, so every run completes (R10, R74),
and a step whose next act is a command runs that command (R61, R234). -/

namespace Sys2Proof.Machine

/-- A word completes as a command or fails with a code, ILLEGAL included: there is no third outcome (R74, R206). -/
theorem execWord_completes_or_fails (w : Word) (s : State) :
    (∃ E' r0 r1, execWord w s = complete E' r0 r1 s) ∨ ∃ c, execWord w s = raiseError c s := by
  cases hd : decode w with
  | ok i => rw [execWord_ok hd]; exact exec_completes_or_fails i s
  | error cause => exact .inr ⟨.illegal, execWord_error hd s⟩

theorem execWord_answers_next (w : Word) (s : State) : ∃ t, execWord w s = .next t := by
  rcases execWord_completes_or_fails w s with ⟨E', r0, r1, h⟩ | ⟨c, h⟩
  · exact ⟨_, h⟩
  · exact ⟨_, h⟩

/-- Whatever the host does, the block takes it and answers a next state. -/
theorem takeEvent_answers_next (e : HostEvent) (s : State) : ∃ t, takeEvent e s = .next t := by
  cases e with
  | command w => exact execWord_answers_next w s
  | reset => exact ⟨resetEngine s, rfl⟩
  | commandCutByReset w => exact ⟨resetEngine s, rfl⟩

/-- With nothing pending, a step leaves the state as it is (R217). -/
theorem step_of_pending_nil {s : State} (h : s.pending = []) : step s = .next s := by simp [step, h, idle]

/-- The step function is total: no state faults or is refused. -/
theorem step_answers_next (s : State) : ∃ t, step s = .next t := by
  cases hp : s.pending with
  | nil => exact ⟨s, step_of_pending_nil hp⟩
  | cons e rest => rw [step_of_pending_cons hp]; exact takeEvent_answers_next e _

/-- Settles O12, by induction on the number of steps: each step answers a next state, and the run goes on from there. -/
theorem everyRunCompletes : Obligations.EveryRunCompletes := by
  intro k
  induction k with
  | zero => exact fun s => ⟨s, rfl⟩
  | succ k ih =>
    intro s
    obtain ⟨t, ht⟩ := step_answers_next s
    rw [run_succ_of_step ht]
    exact ih t

/-- A step with a command word pending executes that word. -/
theorem step_of_pending_command {s : State} {w : Word} {rest : List HostEvent} (h : s.pending = .command w :: rest) :
    step s = execWord w { s with pending := rest } :=
  step_of_pending_cons h

/-- Settles O9: the step takes the word off the pending acts and executes it, and a word that decodes executes its
command. -/
theorem stepRunsTheDecodedCommand : Obligations.StepRunsTheDecodedCommand := by
  intro s w i rest hp hd
  rw [step_of_pending_command hp, execWord_ok hd]

end Sys2Proof.Machine
end

section
/-! SUPPORT. The multiplier's algebra over GF(2)[x] (R36, R101), the eager table (R38) and the lazy cache (R39, R105). -/

namespace Sys2Proof.Machine

/-! ### Linearity, and commutativity from it -/

/-- Every nibble is an XOR of powers of two, so a property that XOR keeps holds of all nibbles if it holds of those. -/
theorem nibble_xor_induction {p : Nibble → Prop} (power : ∀ v ∈ [1, 2, 4, 8], p v)
    (xor : ∀ a b, p a → p b → p (a ^^^ b)) (a : Nibble) : p a := by
  have bits : ∀ a : Nibble, a = (if a.getLsbD 0 then 1 else 0) ^^^ (if a.getLsbD 1 then 2 else 0) ^^^
      (if a.getLsbD 2 then 4 else 0) ^^^ (if a.getLsbD 3 then 8 else 0) := by decide
  have zero : p 0 := by simpa using xor 1 1 (power 1 (by simp)) (power 1 (by simp))
  have pick : ∀ (c : Bool), ∀ v ∈ [1, 2, 4, 8], p (if c then v else 0) := by
    intro c v hv
    cases c
    · exact zero
    · exact power v hv
  rw [bits a]
  exact xor _ _ (xor _ _ (xor _ _ (pick _ 1 (by simp)) (pick _ 2 (by simp))) (pick _ 4 (by simp))) (pick _ 8 (by simp))

theorem gfmul_xor_left (red a a' b : Nibble) : gfmul red (a ^^^ a') b = gfmul red a b ^^^ gfmul red a' b := by
  have pick : ∀ (c : Bool) (x y : Nibble), (if c then x ^^^ y else 0) = (if c then x else 0) ^^^ if c then y else 0 := by
    intro c x y
    cases c <;> simp
  simp only [gfmul_eq_xor, xtime_xor, pick]
  ac_rfl

theorem gfmul_xor_right (red a b b' : Nibble) : gfmul red a (b ^^^ b') = gfmul red a b ^^^ gfmul red a b' := by
  have pick : ∀ (c d : Bool) (x : Nibble), (if c ^^ d then x else 0) = (if c then x else 0) ^^^ if d then x else 0 := by
    intro c d x
    cases c <;> cases d <;> simp
  simp only [gfmul_eq_xor, BitVec.getLsbD_xor, pick]
  ac_rfl

/-- Both sides are linear in each operand, so the powers of two decide it. -/
theorem gfmul_comm (red a b : Nibble) : gfmul red a b = gfmul red b a := by
  have powers : ∀ red : Nibble, ∀ a ∈ [1, 2, 4, 8], ∀ b ∈ [1, 2, 4, 8], gfmul red a b = gfmul red b a := by decide
  refine nibble_xor_induction (p := fun a => gfmul red a b = gfmul red b a) (fun a ha => ?_) (fun a a' h h' => ?_) a
  · refine nibble_xor_induction (p := fun b => gfmul red a b = gfmul red b a) (powers red a ha) (fun b b' h h' => ?_) b
    rw [gfmul_xor_left, gfmul_xor_right, h, h']
  · rw [gfmul_xor_left, gfmul_xor_right, h, h']

/-! ### Nibbles as polynomials -/

/-- A nibble read as a polynomial over GF(2), bit k the coefficient of X^k (R36). -/
noncomputable def nibblePoly (v : Nibble) : Polynomial (ZMod 2) :=
  ∑ k : Fin 4, if v.getLsbD k.val then Polynomial.X ^ k.val else 0

/-- The reduction polynomial x^4 + p(x) of RED (R36). -/
noncomputable def reductionPoly (red : Nibble) : Polynomial (ZMod 2) := Polynomial.X ^ 4 + nibblePoly red

/-- The class of a nibble's polynomial modulo x^4 + p(x). -/
noncomputable def nibbleClass (red v : Nibble) : AdjoinRoot (reductionPoly red) :=
  AdjoinRoot.mk (reductionPoly red) (nibblePoly v)

theorem nibblePoly_eq_bits (v : Nibble) :
    nibblePoly v = (if v.getLsbD 0 then 1 else 0) + (if v.getLsbD 1 then 1 else 0) * Polynomial.X +
      (if v.getLsbD 2 then 1 else 0) * Polynomial.X ^ 2 + (if v.getLsbD 3 then 1 else 0) * Polynomial.X ^ 3 := by
  simp [nibblePoly, Fin.sum_univ_four]

@[simp] theorem nibblePoly_zero : nibblePoly 0#4 = 0 := by simp [nibblePoly]

/-- XOR adds polynomials: in characteristic 2 equal terms cancel. -/
theorem nibblePoly_xor (a b : Nibble) : nibblePoly (a ^^^ b) = nibblePoly a + nibblePoly b := by
  have term : ∀ (c d : Bool) (q : Polynomial (ZMod 2)),
      (if c ^^ d then q else 0) = (if c then q else 0) + if d then q else 0 := by
    intro c d q
    cases c <;> cases d <;> simp [CharTwo.add_self_eq_zero]
  simp only [nibblePoly, BitVec.getLsbD_xor, term, Finset.sum_add_distrib]

/-- A shift within 4 bits multiplies by x and drops the term x^4. -/
theorem nibblePoly_shiftLeft (v : Nibble) :
    nibblePoly (v <<< 1) = Polynomial.X * nibblePoly v + if v.getLsbD 3 then Polynomial.X ^ 4 else 0 := by
  have bits : nibblePoly (v <<< 1) = (if v.getLsbD 0 then 1 else 0) * Polynomial.X +
      (if v.getLsbD 1 then 1 else 0) * Polynomial.X ^ 2 + (if v.getLsbD 2 then 1 else 0) * Polynomial.X ^ 3 := by
    simp [nibblePoly_eq_bits]
  rw [bits, nibblePoly_eq_bits]
  cases v.getLsbD 3
  · simp only [Bool.false_eq_true, if_false]
    ring
  · simp only [if_true]
    linear_combination -CharTwo.add_self_eq_zero (Polynomial.X ^ 4 : Polynomial (ZMod 2))

/-- Doubling multiplies by x, less x^4 + p(x) on overflow (R100). -/
theorem nibblePoly_xtime (red v : Nibble) :
    nibblePoly (xtime red v) = Polynomial.X * nibblePoly v + if v.getLsbD 3 then reductionPoly red else 0 := by
  rw [xtime, nibblePoly_xor, nibblePoly_shiftLeft]
  cases v.getLsbD 3
  · simp
  · simp [reductionPoly, add_assoc]

theorem nibbleClass_xor (red u v : Nibble) : nibbleClass red (u ^^^ v) = nibbleClass red u + nibbleClass red v := by
  simp only [nibbleClass, nibblePoly_xor, map_add]

theorem nibbleClass_xtime (red v : Nibble) :
    nibbleClass red (xtime red v) = AdjoinRoot.root (reductionPoly red) * nibbleClass red v := by
  rw [nibbleClass, nibblePoly_xtime, map_add, map_mul, AdjoinRoot.mk_X, nibbleClass]
  split <;> simp

/-- Modulo x^4 + p(x), the loop's product is the product of polynomials (R101). -/
theorem nibbleClass_gfmul (red a b : Nibble) :
    nibbleClass red (gfmul red a b) = nibbleClass red a * nibbleClass red b := by
  have term : ∀ (c : Bool) (v : Nibble),
      nibbleClass red (if c then v else 0) = (if c then 1 else 0) * nibbleClass red v := by
    intro c v
    cases c <;> simp [nibbleClass]
  have bit : ∀ c : Bool, AdjoinRoot.mk (reductionPoly red) (if c then 1 else 0) = if c then 1 else 0 := by
    intro c
    cases c <;> simp
  have operand : nibbleClass red b = (if b.getLsbD 0 then 1 else 0) +
      (if b.getLsbD 1 then 1 else 0) * AdjoinRoot.root (reductionPoly red) +
      (if b.getLsbD 2 then 1 else 0) * AdjoinRoot.root (reductionPoly red) ^ 2 +
      (if b.getLsbD 3 then 1 else 0) * AdjoinRoot.root (reductionPoly red) ^ 3 := by
    simp only [nibbleClass, nibblePoly_eq_bits, map_add, map_mul, map_pow, AdjoinRoot.mk_X, bit]
  rw [operand, gfmul_eq_xor]
  simp only [nibbleClass_xor, term, nibbleClass_xtime]
  ring

/-- Settles O51: the two sides have the same class modulo x^4 + p(x). -/
theorem gfmulIsThePolynomialProduct : Obligations.GfmulIsThePolynomialProduct := by
  unfold Obligations.GfmulIsThePolynomialProduct
  intro poly red a b
  refine AdjoinRoot.mk_eq_mk.mp ?_
  exact (map_mul _ _ _).trans (nibbleClass_gfmul red a b).symm

/-! ### The eager table -/

theorem lookup_multTable (red a b : Nibble) : lookup (multTable red) a b = gfmul red a b := by
  have := b.isLt
  have row : (16 * a.toNat + b.toNat) / 16 = a.toNat := by omega
  have col : (16 * a.toNat + b.toNat) % 16 = b.toNat := by omega
  simp [lookup, multTable, pairIndex, Vector.get_eq_getElem, row, col]

/-- Settles O54: an entry is its product, and the product is commutative. -/
theorem eagerTableHoldsEveryProduct : Obligations.EagerTableHoldsEveryProduct := by
  intro red a b
  refine ⟨lookup_multTable red a b, ?_⟩
  rw [lookup_multTable, lookup_multTable, gfmul_comm]

/-! ### The lazy cache -/

/-- The document's procedure orders its operands first (R102). -/
theorem mulDoc_swap {a b : Nibble} (h : a.toNat < b.toNat) (red : Nibble) : mulDoc red a b = mulDoc red b a := by
  simp [mulDoc, h, Nat.lt_asymm h]

theorem mulDoc_of_right_le_one {a b : Nibble} (hab : b.toNat ≤ a.toNat) (hb : b.toNat ≤ 1) (red : Nibble) :
    mulDoc red a b = gfmul red a b := by
  have small : b = 0 ∨ b = 1 := by
    rcases Nat.le_one_iff_eq_zero_or_eq_one.mp hb with h | h
    · exact .inl (BitVec.eq_of_toNat_eq h)
    · exact .inr (BitVec.eq_of_toNat_eq h)
  rcases small with rfl | rfl
  · simp [mulDoc, gfmul_eq_xor]
  · simp only [mulDoc, if_neg (Nat.not_lt.mpr hab)]
    simp [gfmul_eq_xor]

/-- A short-circuited product is the product: with a 0 it is 0, with a 1 it is the other operand (R105). -/
theorem mulDoc_of_shortCircuits {a b : Nibble} (h : shortCircuits a b = true) (red : Nibble) :
    mulDoc red a b = gfmul red a b := by
  have small : a.toNat ≤ 1 ∨ b.toNat ≤ 1 := by simpa [shortCircuits] using h
  rcases Nat.lt_or_ge a.toNat b.toNat with hab | hab
  · rw [mulDoc_swap hab, gfmul_comm]
    exact mulDoc_of_right_le_one hab.le (by omega) red
  · exact mulDoc_of_right_le_one hab (by omega) red

/-- Two pairs share a place only if they are the same pair. -/
theorem pairIndex_inj {a b a' b' : Nibble} : pairIndex a b = pairIndex a' b' ↔ a = a' ∧ b = b' :=
  ⟨pairIndex_injective, fun ⟨ha, hb⟩ => by rw [ha, hb]⟩

/-- Filling a verified cache with a product leaves it verified: the pair and its mirror have the same product. -/
theorem cacheVerified_cacheFill {red : Nibble} {t : Cache} (h : cacheVerified red t) (a b : Nibble) :
    cacheVerified red (cacheFill t a b (gfmul red a b)) := by
  intro x y
  constructor
  · intro v hv
    rw [cacheEntry_cacheFill] at hv
    split at hv
    next hit =>
      cases hv
      rcases hit with hit | hit
      · obtain ⟨rfl, rfl⟩ := pairIndex_injective hit
        exact gfmul_comm red _ _
      · obtain ⟨rfl, rfl⟩ := pairIndex_injective hit
        rfl
    next => exact (h x y).1 v hv
  · have mirror : (pairIndex x y = pairIndex b a ∨ pairIndex x y = pairIndex a b) ↔
        (pairIndex y x = pairIndex b a ∨ pairIndex y x = pairIndex a b) := by
      simp only [pairIndex_inj]; tauto
    simp only [cacheEntry_cacheFill, mirror, (h x y).2]

/-- What a verified cache holds at the pair it is filled at is the product already, so no entry is lost. -/
theorem cacheGrows_cacheFill {red : Nibble} {t : Cache} (h : cacheVerified red t) (a b : Nibble) :
    cacheGrows t (cacheFill t a b (gfmul red a b)) := by
  intro x y v hv
  rw [cacheEntry_cacheFill]
  split
  next hit =>
    rw [(h x y).1 v hv]
    rcases hit with hit | hit
    · obtain ⟨rfl, rfl⟩ := pairIndex_injective hit
      rw [gfmul_comm]
    · obtain ⟨rfl, rfl⟩ := pairIndex_injective hit
      rfl
  next => exact hv

theorem cacheGrows_refl (t : Cache) : cacheGrows t t := fun _ _ _ h => h

/-- The cache after a lazy multiplication is the one before, or that one filled at the pair with its product (R105). -/
theorem lazyMultiply_cases {red : Nibble} {t : Cache} (h : cacheVerified red t) (fillShort : Bool) (a b : Nibble) :
    (lazyMultiply red fillShort t a b).1 = gfmul red a b ∧
      ((lazyMultiply red fillShort t a b).2 = t ∨
        (lazyMultiply red fillShort t a b).2 = cacheFill t a b (gfmul red a b)) := by
  unfold lazyMultiply
  split
  next short =>
    rw [mulDoc_of_shortCircuits short]
    cases fillShort
    · exact ⟨rfl, .inl rfl⟩
    · exact ⟨rfl, .inr rfl⟩
  next =>
    split
    next v hv => exact ⟨(h a b).1 v hv, .inl rfl⟩
    next => exact ⟨rfl, .inr rfl⟩

/-- Settles O55: the cache afterwards is the one before or that one filled with a product, and both are verified and have
lost nothing. -/
theorem lazyCacheIsUnobservable : Obligations.LazyCacheIsUnobservable := by
  refine ⟨fun red fillShort t a b h => ?_, cacheEntry_powerUpCache, fun red a b => ?_⟩
  · obtain ⟨product, same | filled⟩ := lazyMultiply_cases h fillShort a b
    · rw [same]
      exact ⟨product, h, cacheGrows_refl t⟩
    · rw [filled]
      exact ⟨product, cacheVerified_cacheFill h a b, cacheGrows_cacheFill h a b⟩
  · simp [cacheEntry_powerUpCache]

end Sys2Proof.Machine
end

section
/-! SUPPORT. The cells of the grid (R22), MixColumnsSerial by cells (R123), and the permutation by rounds (R125). -/

namespace Sys2Proof.Machine

/-! ### Cells -/

/-- Two cells share a byte and a nibble of it only if they are the same cell (R22). -/
theorem cell_place_injective {r c r' c' : Fin 6} (hb : cellByte r' c' = cellByte r c)
    (hn : c'.val % 2 = c.val % 2) : r' = r ∧ c' = c := by
  have hb' : (c'.val + 6 * r'.val) / 2 = (c.val + 6 * r.val) / 2 := congrArg Fin.val hb
  constructor <;> ext <;> omega

/-- setcell writes its cell and leaves every other (R8, R22). -/
theorem cell_setCell (S : Grid) (r c r' c' : Fin 6) (v : Nibble) :
    cell (setCell S r c v) r' c' = if r' = r ∧ c' = c then v else cell S r' c' := by
  by_cases same : r' = r ∧ c' = c
  · obtain ⟨rfl, rfl⟩ := same
    by_cases even : c'.val % 2 = 0 <;> simp [cell, setCell, even]
  by_cases hb : cellByte r' c' = cellByte r c
  · have hn : c'.val % 2 ≠ c.val % 2 := fun hn => same (cell_place_injective hb hn)
    by_cases even : c.val % 2 = 0
    · have odd' : c'.val % 2 = 1 := by omega
      simp [cell, setCell, same, even, odd', hb]
    · have even' : c'.val % 2 = 0 := by omega
      simp [cell, setCell, same, even, even', hb]
  · by_cases even : c.val % 2 = 0 <;> simp [cell, setCell, same, even, getByte_setByte, hb]

/-- The two cells of byte k are (k / 3, 2 (k % 3)) and the next one of that row. -/
theorem getByte_eq_cells (S : Grid) (k : Fin 18) :
    getByte S k = pack (cell S ⟨k.val / 3, by omega⟩ ⟨2 * (k.val % 3), by omega⟩)
      (cell S ⟨k.val / 3, by omega⟩ ⟨2 * (k.val % 3) + 1, by omega⟩) := by
  have high : cellByte ⟨k.val / 3, by omega⟩ ⟨2 * (k.val % 3), by omega⟩ = k := by
    ext; simp only [cellByte]; omega
  have low : cellByte ⟨k.val / 3, by omega⟩ ⟨2 * (k.val % 3) + 1, by omega⟩ = k := by
    ext; simp only [cellByte]; omega
  simp [cell, high, low]

/-- A grid is its 36 cells (R23). -/
theorem grid_eq_of_cells {S T : Grid} (h : ∀ r c, cell S r c = cell T r c) : S = T :=
  grid_eq_of_bytes fun k => by rw [getByte_eq_cells, getByte_eq_cells, h, h]

/-- Settles O43: the packing is the model's own, setcell meets it, and a byte is the pair of its cells. -/
theorem cellsArePackedTwoPerByte : Obligations.CellsArePackedTwoPerByte := by
  refine ⟨fun S r c k hk => ?_, cell_setCell, fun S T => grid_eq_of_cells⟩
  obtain rfl : k = cellByte r c := Fin.ext hk
  rfl

/-! ### MixColumnsSerial -/

@[simp] theorem mem_six (i : Fin 6) : i ∈ six := by revert i; decide

theorem six_nodup : six.Nodup := by decide

/-- Writing some rows of column j writes those cells and no other. -/
theorem cell_setCells_of_column (S : Grid) (j : Fin 6) (new : Vector Nibble 6) (rows : List (Fin 6)) (r c : Fin 6) :
    cell (rows.foldl (fun S i => setCell S i j (new.get i)) S) r c =
      if r ∈ rows ∧ c = j then new.get r else cell S r c := by
  induction rows generalizing S with
  | nil => simp
  | cons i rows ih =>
    rw [List.foldl_cons, ih, cell_setCell]
    by_cases hc : c = j <;> by_cases hr : r ∈ rows <;> by_cases hi : r = i <;> simp [hc, hr, hi]

theorem cell_setColumn (S : Grid) (j : Fin 6) (new : Vector Nibble 6) (r c : Fin 6) :
    cell (setColumn S j new) r c = if c = j then new.get r else cell S r c := by
  simp [setColumn, cell_setCells_of_column]

theorem column_setColumn_of_ne {j c : Fin 6} (h : c ≠ j) (S : Grid) (new : Vector Nibble 6) :
    column (setColumn S j new) c = column S c := by
  simp [column, cell_setColumn, h]

/-- Mixing some columns, each once, mixes each from its old cells (R237): a column written earlier is not read again. -/
theorem cell_mixColumns (p : Params) (S : Grid) (cols : List (Fin 6)) (distinct : cols.Nodup) (r c : Fin 6) :
    cell (cols.foldl (fun S j => setColumn S j (mixColumn p (column S j))) S) r c =
      if c ∈ cols then (mixColumn p (column S c)).get r else cell S r c := by
  induction cols generalizing S with
  | nil => simp
  | cons j cols ih =>
    obtain ⟨fresh, distinct⟩ := List.nodup_cons.mp distinct
    rw [List.foldl_cons, ih _ distinct]
    by_cases hj : c = j
    · subst hj
      simp [fresh, cell_setColumn]
    · simp [hj, cell_setColumn, column_setColumn_of_ne hj]

theorem cell_mixColumnsSerial (p : Params) (S : Grid) (r c : Fin 6) :
    cell (mixColumnsSerial p S) r c = (mixColumn p (column S c)).get r := by
  simp [mixColumnsSerial, cell_mixColumns p S six six_nodup]

/-- Row i of MIX gives output row i (R33, R123). -/
theorem mixColumn_get (p : Params) (old : Vector Nibble 6) (i : Fin 6) :
    (mixColumn p old).get i =
      six.foldl (fun acc k => acc ^^^ gfmul p.red ((p.mix.get i).get k) (old.get k)) 0 := by
  simp [mixColumn, Vector.get_eq_getElem]

theorem column_get (S : Grid) (i j : Fin 6) : (column S j).get i = cell S i j := by
  simp [column, Vector.get_eq_getElem]

/-- Settles O47: every column is mixed from its old cells, and the example is evaluated. -/
theorem mixColumnsMultipliesEveryOldColumn : Obligations.MixColumnsMultipliesEveryOldColumn := by
  refine ⟨fun p S i j => ?_, by decide⟩
  rw [cell_mixColumnsSerial, mixColumn_get]
  simp [six, column_get]

/-! ### The permutation -/

/-- A fold over 0 to n - 1 ends where a chain that applies its steps ends. -/
theorem foldl_finRange_of_chain {α : Type} {n : Nat} (f : α → Fin n → α) (states : Nat → α)
    (next : ∀ r : Fin n, f (states r.val) r = states (r.val + 1)) :
    (List.finRange n).foldl f (states 0) = states n := by
  induction n with
  | zero => rfl
  | succ n ih =>
    rw [List.finRange_succ_last, List.foldl_append, List.foldl_map, ih _ fun r => next r.castSucc]
    exact next (Fin.last n)

/-- Settles O48: the rounds are folded over 0 to 11 in order, so a chain of rounds ends in P(S). -/
theorem permutationIsTwelveRounds : Obligations.PermutationIsTwelveRounds := by
  refine ⟨fun p S states start next => ?_, fun S => by rw [P], by decide +kernel⟩
  have indexes : roundIndexes = List.finRange 12 := by decide
  rw [permutation, indexes, ← start]
  exact foldl_finRange_of_chain (photonRound p) states fun r => (next r).symm

end Sys2Proof.Machine
end

section
/-! SUPPORT. What a command and a step can do to E and to the responses, said once (R10, R206), and the state family
from it: the invariant, the writers of PHASE, SQCNT and ERR, reset, and STATUS. -/

namespace Sys2Proof.Machine

/-! ### What a completing command does to E -/

/-- The command i completes in E: it leaves F and answers the result bytes r0 and r1 (R78). -/
inductive Completes (E : Engine) : Instr → Engine → Byte → Byte → Prop
  | init : Completes E .init { S := iv, phase := .absorb, sqcnt := 0, err := none } 0x00 0x00
  | absorb (b0 b1 : Byte) (legal : E.phase = .absorb) :
      Completes E (.absorb b0 b1) { E with S := absorbPair E.S b0 b1 } 0x00 0x00
  | pad0 (legal : E.phase = .absorb) :
      Completes E .pad0 { E with S := P (xorByte E.S 0 padByte), phase := .squeeze, sqcnt := 0 } 0x00 0x00
  | pad1 (b : Byte) (legal : E.phase = .absorb) :
      Completes E (.pad1 b) { E with S := absorbPair E.S b padByte, phase := .squeeze, sqcnt := 0 } 0x00 0x00
  | squeeze (legal : E.phase = .squeeze) :
      Completes E .squeeze
        { E with S := squeezeState E, sqcnt := E.sqcnt + 1, phase := if E.sqcnt + 1 = 8 then .done else E.phase }
        (getByte (squeezeState E) 0) (getByte (squeezeState E) 1)
  | permute : Completes E .permute { E with S := P E.S } 0x00 0x00
  | gfmul (a b : Nibble) : Completes E (.gfmul a b) E ((Machine.gfmul Config.red a b).setWidth 8) 0x00
  | rdstate (k : Byte) (mapped : k.toNat < 18) : Completes E (.rdstate k) E (getByte E.S ⟨k.toNat, mapped⟩) 0x00
  | wrstate (k v : Byte) (mapped : k.toNat < 18) :
      Completes E (.wrstate k v) { E with S := setByte E.S ⟨k.toNat, mapped⟩ v } 0x00 0x00
  | rdstatus : Completes E .rdstatus E ((status E).extractLsb' 0 8) ((status E).extractLsb' 8 8)

/-- Every command completes as Completes says, or fails. -/
theorem exec_cases (i : Instr) (s : State) :
    (∃ F r0 r1, Completes s.engine i F r0 r1 ∧ exec i s = complete F r0 r1 s) ∨ ∃ c, exec i s = raiseError c s := by
  have phased : ∀ (p : Phase) (run : Engine → Result),
      (s.engine.phase = p → ∃ F r0 r1, Completes s.engine i F r0 r1 ∧ run s.engine = complete F r0 r1 s) →
      (∃ F r0 r1, Completes s.engine i F r0 r1 ∧ whenPhase p s run = complete F r0 r1 s) ∨
        ∃ c, whenPhase p s run = raiseError c s := by
    intro p run legal
    by_cases hp : s.engine.phase = p
    · exact .inl (by rw [whenPhase_in run hp]; exact legal hp)
    · exact .inr ⟨_, whenPhase_out run hp⟩
  have mapped : ∀ (k : Byte) (run : Fin 18 → Result),
      (∀ hk : k.toNat < 18, ∃ F r0 r1, Completes s.engine i F r0 r1 ∧ run ⟨k.toNat, hk⟩ = complete F r0 r1 s) →
      (∃ F r0 r1, Completes s.engine i F r0 r1 ∧ whenMapped k s run = complete F r0 r1 s) ∨
        ∃ c, whenMapped k s run = raiseError c s := by
    intro k run legal
    rcases Nat.lt_or_ge k.toNat 18 with hk | hk
    · exact .inl (by rw [whenMapped_in run hk]; exact legal hk)
    · exact .inr ⟨_, whenMapped_out run hk⟩
  cases i with
  | init => exact .inl ⟨_, _, _, .init, rfl⟩
  | absorb b0 b1 => unfold exec execAbsorb; exact phased _ _ fun hp => ⟨_, _, _, .absorb b0 b1 hp, rfl⟩
  | pad0 => unfold exec execPad0; exact phased _ _ fun hp => ⟨_, _, _, .pad0 hp, rfl⟩
  | pad1 b => unfold exec execPad1; exact phased _ _ fun hp => ⟨_, _, _, .pad1 b hp, rfl⟩
  | squeeze => unfold exec execSqueeze; exact phased _ _ fun hp => ⟨_, _, _, .squeeze hp, rfl⟩
  | permute => exact .inl ⟨_, _, _, .permute, rfl⟩
  | gfmul a b => exact .inl ⟨_, _, _, .gfmul a b, rfl⟩
  | rdstate k => unfold exec execRdstate; exact mapped _ _ fun hk => ⟨_, _, _, .rdstate k hk, rfl⟩
  | wrstate k v => unfold exec execWrstate; exact mapped _ _ fun hk => ⟨_, _, _, .wrstate k v hk, rfl⟩
  | rdstatus => exact .inl ⟨_, _, _, .rdstatus, rfl⟩

section
variable {E F : Engine} {i : Instr} {r0 r1 : Byte}

/-- The commands that write PHASE (R26). -/
theorem Completes.phase_cases (h : Completes E i F r0 r1) : F.phase = E.phase ∨ (i = .init ∧ F.phase = .absorb) ∨
    ((i = .pad0 ∨ ∃ b, i = .pad1 b) ∧ E.phase = .absorb ∧ F.phase = .squeeze) ∨
    (i = .squeeze ∧ E.phase = .squeeze ∧ E.sqcnt = 7 ∧ F.phase = .done) := by
  cases h with
  | init => exact .inr (.inl ⟨rfl, rfl⟩)
  | pad0 legal => exact .inr (.inr (.inl ⟨.inl rfl, legal, rfl⟩))
  | pad1 b legal => exact .inr (.inr (.inl ⟨.inr ⟨b, rfl⟩, legal, rfl⟩))
  | squeeze legal =>
    by_cases eighth : E.sqcnt + 1 = 8
    · exact .inr (.inr (.inr ⟨rfl, legal, by bv_omega, if_pos eighth⟩))
    · exact .inl (if_neg eighth)
  | _ => exact .inl rfl

/-- The commands that write SQCNT (R27). -/
theorem Completes.sqcnt_cases (h : Completes E i F r0 r1) : F.sqcnt = E.sqcnt ∨
    ((i = .init ∨ i = .pad0 ∨ ∃ b, i = .pad1 b) ∧ F.sqcnt = 0) ∨
    (i = .squeeze ∧ E.phase = .squeeze ∧ F.sqcnt = E.sqcnt + 1) := by
  cases h with
  | init => exact .inr (.inl ⟨.inl rfl, rfl⟩)
  | pad0 legal => exact .inr (.inl ⟨.inr (.inl rfl), rfl⟩)
  | pad1 b legal => exact .inr (.inl ⟨.inr (.inr ⟨b, rfl⟩), rfl⟩)
  | squeeze legal => exact .inr (.inr ⟨rfl, legal, rfl⟩)
  | _ => exact .inl rfl

/-- A completing command other than INIT leaves ERR (R203). -/
theorem Completes.err_eq (h : Completes E i F r0 r1) (hi : i ≠ .init) : F.err = E.err := by
  cases h with
  | init => exact absurd rfl hi
  | _ => rfl

/-- A completing command keeps PHASE and SQCNT in agreement: the 8th SQUEEZE is the one that leaves SQCNT = 8. -/
theorem Completes.keeps_phaseCountsAgree (h : Completes E i F r0 r1) (agree : phaseCountsAgree E = true) :
    phaseCountsAgree F = true := by
  cases h with
  | init => rfl
  | pad0 legal => rfl
  | pad1 b legal => rfl
  | squeeze legal =>
    have below : E.sqcnt.toNat < 8 := by simpa [phaseCountsAgree, legal] using agree
    by_cases eighth : E.sqcnt + 1 = 8
    · simp only [phaseCountsAgree, eighth, if_true, decide_true]
    · simp only [phaseCountsAgree, if_neg eighth, legal, decide_eq_true_eq]
      bv_omega
  | _ => exact agree

end

/-! ### What a step does -/

/-- t is s after the block took the act e of the host: a command that completed, a word that failed, or a reset. -/
inductive TakesEffect (s t : State) : HostEvent → Prop
  | completed {w : Word} {i : Instr} {r0 r1 : Byte} (spells : decode w = .ok i)
      (engine : Completes s.engine i t.engine r0 r1) (answer : t.responses = s.responses ++ [okResponse r0 r1]) :
      TakesEffect s t (.command w)
  | failed {w : Word} {c : ErrCode} (engine : t.engine = { s.engine with err := latchError s.engine.err c })
      (answer : t.responses = s.responses ++ [errorResponse c]) : TakesEffect s t (.command w)
  | reset (engine : t.engine = Engine.reset) (answer : t.responses = s.responses) : TakesEffect s t .reset
  | cutByReset {w : Word} (engine : t.engine = Engine.reset) (answer : t.responses = s.responses) :
      TakesEffect s t (.commandCutByReset w)

theorem execWord_takesEffect {w : Word} {s t : State} (h : execWord w s = .next t) :
    TakesEffect s t (.command w) ∧ t.pending = s.pending := by
  have failed : ∀ c, raiseError c s = .next t → TakesEffect s t (.command w) ∧ t.pending = s.pending := by
    intro c hc
    obtain ⟨engine, pending, answer⟩ := raiseError_next hc
    exact ⟨.failed engine answer, pending⟩
  cases hd : decode w with
  | error cause => exact failed _ ((execWord_error hd s).symm.trans h)
  | ok i =>
    rw [execWord_ok hd] at h
    rcases exec_cases i s with ⟨F, r0, r1, completes, hexec⟩ | ⟨c, hexec⟩
    · obtain ⟨rfl, pending, answer⟩ := complete_next (hexec.symm.trans h)
      exact ⟨.completed hd completes answer, pending⟩
    · exact failed c (hexec.symm.trans h)

/-- A step is idle, or it takes the next act of the host off the pending ones. -/
theorem step_takesEffect {s t : State} (h : step s = .next t) :
    (s.pending = [] ∧ t = s) ∨ ∃ e, s.pending = e :: t.pending ∧ TakesEffect s t e := by
  rcases step_cases h with idle | ⟨e, rest, hp, ht⟩
  · exact .inl idle
  cases e with
  | command w =>
    obtain ⟨effect, pending⟩ := execWord_takesEffect ht
    refine .inr ⟨.command w, by rw [hp, pending], ?_⟩
    cases effect with
    | completed spells engine answer => exact .completed spells engine answer
    | failed engine answer => exact .failed engine answer
  | reset => cases ht; exact .inr ⟨_, hp, .reset rfl rfl⟩
  | commandCutByReset w => cases ht; exact .inr ⟨_, hp, .cutByReset rfl rfl⟩

/-! ### The invariant -/

theorem responseWord_reserved (c : BitVec 2) (r0 r1 : Byte) :
    (responseWord c r0 r1).extractLsb' 2 6 = 0 ∧ (responseWord c r0 r1).extractLsb' 24 8 = 0 := by
  constructor
  · rw [responseWord, BitVec.extractLsb'_append_eq_of_le (by omega)]
    exact BitVec.extractLsb'_append_eq_right
  · rw [responseWord, BitVec.extractLsb'_append_eq_of_le (by omega), BitVec.extractLsb'_append_eq_of_le (by omega),
      BitVec.extractLsb'_append_eq_of_le (by omega)]
    exact BitVec.extractLsb'_append_eq_left

theorem okResponse_wellFormed (r0 r1 : Byte) : responseWellFormed (okResponse r0 r1) = true := by
  simp [responseWellFormed, okResponse, responseWord_reserved]

theorem errorResponse_wellFormed (c : ErrCode) : responseWellFormed (errorResponse c) = true := by
  simp [responseWellFormed, errorResponse, responseWord_reserved]

theorem phaseCountsAgree_err (E : Engine) (err : Option ErrCode) :
    phaseCountsAgree { E with err := err } = phaseCountsAgree E := rfl

theorem engineReset_phaseCountsAgree : phaseCountsAgree Engine.reset = true := by decide

/-- A state whose E agrees and that returned one more well-formed response keeps the invariant. -/
theorem Inv.respond {s t : State} {resp : Word} (h : Inv s) (agree : phaseCountsAgree t.engine = true)
    (answer : t.responses = s.responses ++ [resp]) (wf : responseWellFormed resp = true) : Inv t := by
  refine ⟨agree, fun w hw => ?_⟩
  rw [answer, List.mem_append, List.mem_singleton] at hw
  rcases hw with hw | rfl
  · exact h.2 w hw
  · exact wf

/-- Every act of the host keeps the invariant. -/
theorem TakesEffect.keeps_inv {s t : State} {e : HostEvent} (effect : TakesEffect s t e) (h : Inv s) : Inv t := by
  cases effect with
  | completed spells engine answer =>
    exact h.respond (engine.keeps_phaseCountsAgree h.1) answer (okResponse_wellFormed _ _)
  | failed engine answer =>
    exact h.respond (by rw [engine, phaseCountsAgree_err]; exact h.1) answer (errorResponse_wellFormed _)
  | reset engine answer => exact ⟨engine ▸ engineReset_phaseCountsAgree, answer ▸ h.2⟩
  | cutByReset engine answer => exact ⟨engine ▸ engineReset_phaseCountsAgree, answer ▸ h.2⟩

/-- Settles O26: an idle step keeps the state, and every act of the host keeps the invariant. -/
theorem everyStepKeepsInvariant : Obligations.EveryStepKeepsInvariant := by
  intro s t h hs
  rcases step_takesEffect hs with ⟨-, rfl⟩ | ⟨e, -, effect⟩
  · exact h
  · exact effect.keeps_inv h

/-- Settles O25: E agrees at reset, and no response has been returned. -/
theorem resetStateKeepsInvariant : Obligations.ResetStateKeepsInvariant :=
  ⟨engineReset_phaseCountsAgree, by simp⟩

/-! ### The writers of PHASE and SQCNT -/

/-- Settles O22: a completing command writes PHASE as Completes.phase_cases says, a failing one does not, and a reset
makes it IDLE. -/
theorem phaseIsWrittenByItsWritersOnly : Obligations.PhaseIsWrittenByItsWritersOnly := by
  intro s t hs
  rcases step_takesEffect hs with ⟨-, rfl⟩ | ⟨e, hp, effect⟩
  · exact .inl rfl
  cases effect with
  | @completed w i r0 r1 spells engine answer =>
    rcases engine.phase_cases with keeps | ⟨rfl, absorb⟩ | ⟨pad, inPhase, squeeze⟩ | ⟨rfl, inPhase, count, done⟩
    · exact .inl keeps
    · exact .inr ⟨_, _, hp, .inl ⟨w, rfl, spells, absorb⟩⟩
    · refine .inr ⟨_, _, hp, .inr (.inl ⟨w, rfl, ?_, inPhase, squeeze⟩)⟩
      rcases pad with rfl | ⟨b, rfl⟩
      · exact .inl spells
      · exact .inr ⟨b, spells⟩
    · exact .inr ⟨_, _, hp, .inr (.inr (.inl ⟨w, rfl, spells, inPhase, count, done⟩))⟩
  | failed engine answer => exact .inl (by rw [engine])
  | reset engine answer => exact .inr ⟨_, _, hp, .inr (.inr (.inr ⟨.inl rfl, by rw [engine, engineReset_phase]⟩))⟩
  | @cutByReset w engine answer =>
    exact .inr ⟨_, _, hp, .inr (.inr (.inr ⟨.inr ⟨w, rfl⟩, by rw [engine, engineReset_phase]⟩))⟩

/-- Settles O23: a completing command writes SQCNT as Completes.sqcnt_cases says, a failing one does not, and a reset
makes it 0. -/
theorem sqcntIsWrittenByItsWritersOnly : Obligations.SqcntIsWrittenByItsWritersOnly := by
  intro s t hs
  rcases step_takesEffect hs with ⟨-, rfl⟩ | ⟨e, hp, effect⟩
  · exact .inl rfl
  cases effect with
  | @completed w i r0 r1 spells engine answer =>
    rcases engine.sqcnt_cases with keeps | ⟨writer, zero⟩ | ⟨rfl, inPhase, count⟩
    · exact .inl keeps
    · refine .inr ⟨_, _, hp, .inl ⟨w, rfl, ?_, zero⟩⟩
      rcases writer with rfl | rfl | ⟨b, rfl⟩
      · exact .inl spells
      · exact .inr (.inl spells)
      · exact .inr (.inr ⟨b, spells⟩)
    · exact .inr ⟨_, _, hp, .inr (.inl ⟨w, rfl, spells, inPhase, count⟩)⟩
  | failed engine answer => exact .inl (by rw [engine])
  | reset engine answer => exact .inr ⟨_, _, hp, .inr (.inr ⟨.inl rfl, by rw [engine, engineReset_sqcnt]⟩)⟩
  | @cutByReset w engine answer =>
    exact .inr ⟨_, _, hp, .inr (.inr ⟨.inr ⟨w, rfl⟩, by rw [engine, engineReset_sqcnt]⟩)⟩

/-! ### Reset -/

theorem getByte_engineReset (k : Fin 18) : getByte Engine.reset.S k = 0x00 := by
  simp [getByte, Vector.get_eq_getElem]

/-- Settles O13: the step is resetEngine, with the reset taken off the pending acts. -/
theorem resetSetsEveryField : Obligations.ResetSetsEveryField := by
  intro s rest hp
  exact ⟨resetEngine { s with pending := rest }, step_of_pending_cons hp, getByte_engineReset, rfl, rfl, rfl, rfl, rfl⟩

/-- Settles O15: the fields of Engine.reset, and STATUS evaluated on it. -/
theorem resetStateHasTheSpecValues : Obligations.ResetStateHasTheSpecValues :=
  ⟨getByte_engineReset, rfl, rfl, rfl, by decide⟩

/-! ### STATUS -/

theorem status_fields (E : Engine) :
    (status E).extractLsb' 0 2 = E.phase.code ∧ (status E).extractLsb' 2 4 = E.sqcnt ∧
      (status E).extractLsb' 6 2 = errBits E.err ∧ (status E).extractLsb' 8 8 = 0 := by
  refine ⟨?_, ?_, ?_, ?_⟩
  · rw [status, BitVec.extractLsb'_append_eq_of_add_le (by omega), BitVec.extractLsb'_append_eq_right]
  · rw [status, BitVec.extractLsb'_append_eq_of_add_le (by omega), BitVec.extractLsb'_append_eq_of_le (by omega),
      BitVec.extractLsb'_append_eq_right]
  · rw [status, BitVec.extractLsb'_append_eq_of_add_le (by omega), BitVec.extractLsb'_append_eq_of_le (by omega),
      BitVec.extractLsb'_append_eq_left]
  · exact BitVec.extractLsb'_append_eq_left

/-- PHASE and SQCNT agree only if SQCNT is at most 8 (R27). -/
theorem sqcnt_le_of_phaseCountsAgree {E : Engine} (agree : phaseCountsAgree E = true) : E.sqcnt.toNat ≤ 8 := by
  cases hp : E.phase <;> simp only [phaseCountsAgree, hp, decide_eq_true_eq] at agree
  case idle => simp [agree]
  case absorb => simp [agree]
  case squeeze => omega
  case done => simp [agree]

/-- Settles O27: the fields are read back from the concatenation. -/
theorem statusShowsPhaseSqcntErr : Obligations.StatusShowsPhaseSqcntErr := by
  intro E
  obtain ⟨phase, sqcnt, err, zero⟩ := status_fields E
  refine ⟨?_, sqcnt, ?_, zero, fun agree => ⟨?_, zero⟩⟩
  · rw [phase]; cases E.phase <;> rfl
  · rw [err]; rcases E.err with _ | _ | _ | _ <;> rfl
  · rw [sqcnt]; exact sqcnt_le_of_phaseCountsAgree agree

end Sys2Proof.Machine
end

section
/-! SUPPORT. The ERR latch over a run (R28, R203), and what the commands' answers depend on: not on ERR (R28), and for
the sponge commands not on the capacity part of S (R25). -/

namespace Sys2Proof.Machine

/-! ### The word of a command (R70, R79) -/

theorem noOperand_ok {w : Word} {i j : Instr} (h : noOperand w i = .ok j) : d0 w = 0 ∧ d1 w = 0 ∧ j = i := by
  unfold noOperand at h
  split at h
  next zero => cases h; exact ⟨zero.1, zero.2, rfl⟩
  next => cases h

theorem oneOperand_ok {w : Word} {i : Byte → Instr} {j : Instr} (h : oneOperand w i = .ok j) :
    d1 w = 0 ∧ j = i (d0 w) := by
  unfold oneOperand at h
  split at h
  next zero => cases h; exact ⟨zero, rfl⟩
  next => cases h

/-- A word that decodes is its command's encoding, but for the bits that GFMUL ignores (R79, R81). -/
theorem eq_encode_of_decode {w : Word} {i : Instr} (h : decode w = .ok i) (notGfmul : ∀ a b, i ≠ .gfmul a b) :
    w = encode i := by
  unfold decode at h
  split at h
  next => cases h
  next reserved =>
    obtain ⟨h0, h1⟩ : rsv0 w = 0 ∧ rsv1 w = 0 := by simpa [not_or] using reserved
    have format : ∀ {o : Nibble} {b0 b1 : Byte}, (op w).toNat = o.toNat → d0 w = b0 → d1 w = b1 →
        w = formatC o b0 b1 := fun ho hd0 hd1 =>
      word_eq_of_fields (by simpa using BitVec.eq_of_toNat_eq ho) (by simpa using h0) (by simpa using hd0)
        (by simpa using hd1) (by simpa using h1)
    have plain : ∀ {o : Nibble} {j : Instr}, (op w).toNat = o.toNat → encode j = formatC o 0 0 →
        noOperand w j = .ok i → w = encode i := by
      intro o j ho hj h
      obtain ⟨hd0, hd1, rfl⟩ := noOperand_ok h
      rw [hj]
      exact format ho hd0 hd1
    have indexed : ∀ {o : Nibble} {j : Byte → Instr}, (op w).toNat = o.toNat → (∀ b, encode (j b) = formatC o b 0) →
        oneOperand w j = .ok i → w = encode i := by
      intro o j ho hj h
      obtain ⟨hd1, rfl⟩ := oneOperand_ok h
      rw [hj]
      exact format ho rfl hd1
    split at h
    case h_1 ho => exact plain (o := 0) ho rfl h
    case h_2 ho => cases h; exact format ho rfl rfl
    case h_3 ho => exact plain (o := 2) ho rfl h
    case h_4 ho => exact indexed (o := 3) ho (fun _ => rfl) h
    case h_5 ho => exact plain (o := 4) ho rfl h
    case h_6 ho => exact plain (o := 5) ho rfl h
    case h_7 => cases h; exact absurd rfl (notGfmul _ _)
    case h_8 ho => exact indexed (o := 7) ho (fun _ => rfl) h
    case h_9 ho => cases h; exact format ho rfl rfl
    case h_10 ho => exact plain (o := 9) ho rfl h
    case h_11 => cases h

theorem encode_init : encode .init = 0x00000000 := by decide

theorem encode_rdstatus : encode .rdstatus = 0x00000009 := by decide

/-! ### The first error of a run -/

@[simp] theorem responseCode_okResponse (r0 r1 : Byte) : responseCode (okResponse r0 r1) = 0 :=
  responseCode_responseWord 0 r0 r1

@[simp] theorem responseCode_errorResponse (c : ErrCode) : responseCode (errorResponse c) = c.code :=
  responseCode_responseWord c.code 0 0

/-- The first nonzero code of ERR and then of the responses, 0 if there is none: ERR counts as the earliest response. -/
def firstErrorCode (err : Option ErrCode) (responses : List Word) : BitVec 2 :=
  ((errBits err :: responses.map responseCode).find? fun code => code ≠ 0).getD 0

theorem firstErrorCode_none (responses : List Word) :
    firstErrorCode none responses = ((responses.map responseCode).find? fun code => code ≠ 0).getD 0 := by
  simp [firstErrorCode, errBits]

@[simp] theorem firstErrorCode_some (c : ErrCode) (responses : List Word) :
    firstErrorCode (some c) responses = c.code := by
  have hc : c.code ≠ 0#2 := errCode_code_ne_zero c
  simp [firstErrorCode, errBits, hc]

theorem firstErrorCode_nil (err : Option ErrCode) : firstErrorCode err [] = errBits err := by
  cases err with
  | none => rfl
  | some c => rw [firstErrorCode_some]; rfl

theorem firstErrorCode_cons_ok (err : Option ErrCode) (r0 r1 : Byte) (responses : List Word) :
    firstErrorCode err (okResponse r0 r1 :: responses) = firstErrorCode err responses := by
  cases err with
  | none => rw [firstErrorCode_none, firstErrorCode_none, List.map_cons, List.find?_cons_of_neg (by simp)]
  | some c => rw [firstErrorCode_some, firstErrorCode_some]

theorem firstErrorCode_cons_error (err : Option ErrCode) (c : ErrCode) (responses : List Word) :
    firstErrorCode err (errorResponse c :: responses) = firstErrorCode (latchError err c) responses := by
  cases err with
  | none =>
    rw [latchError_none, firstErrorCode_some, firstErrorCode_none, List.map_cons,
      List.find?_cons_of_pos (by simpa using errCode_code_ne_zero c), responseCode_errorResponse]
    rfl
  | some d => rw [latchError_some, firstErrorCode_some, firstErrorCode_some]

/-- A word other than INIT's answers one response, and ERR afterwards accounts for its code. -/
theorem TakesEffect.err_accounts_for_answer {s t : State} {w : Word} (effect : TakesEffect s t (.command w))
    (notInit : w ≠ 0x00000000) : ∃ resp, t.responses = s.responses ++ [resp] ∧
      ∀ later, firstErrorCode s.engine.err (resp :: later) = firstErrorCode t.engine.err later := by
  cases effect with
  | @completed _ i r0 r1 spells engine answer =>
    have hi : i ≠ .init := by
      rintro rfl
      exact notInit ((eq_encode_of_decode spells (by simp)).trans encode_init)
    exact ⟨_, answer, fun later => by rw [firstErrorCode_cons_ok, engine.err_eq hi]⟩
  | @failed _ c engine answer => exact ⟨_, answer, fun later => by rw [firstErrorCode_cons_error, engine]⟩

/-- Over a run of words other than INIT's, ERR ends as the first error of ERR before it and of the answers. -/
theorem run_err_eq_firstErrorCode {ws : List Word} {rest : List HostEvent} {s t : State}
    (hp : s.pending = ws.map .command ++ rest) (notInit : ∀ w ∈ ws, w ≠ 0x00000000)
    (hrun : run ws.length s = .next t) :
    ∃ answers, t.responses = s.responses ++ answers ∧ errBits t.engine.err = firstErrorCode s.engine.err answers := by
  induction ws generalizing s with
  | nil => cases hrun; exact ⟨[], by simp, (firstErrorCode_nil _).symm⟩
  | cons w ws ih =>
    obtain ⟨u, hu⟩ := step_answers_next s
    rw [List.length_cons, run_succ_of_step hu] at hrun
    rcases step_takesEffect hu with ⟨idle, -⟩ | ⟨e, he, effect⟩
    · simp [idle] at hp
    obtain ⟨rfl, hpu⟩ : e = .command w ∧ u.pending = ws.map .command ++ rest := by
      simpa using he.symm.trans hp
    obtain ⟨resp, hresp, accounts⟩ := effect.err_accounts_for_answer (notInit w (by simp))
    obtain ⟨answers, hanswers, herr⟩ := ih hpu (fun v hv => notInit v (by simp [hv])) hrun
    exact ⟨resp :: answers, by simp [hanswers, hresp], by rw [herr, accounts]⟩

/-- Settles O20: with ERR = 0 at the start, the first error is the first nonzero code of the run's responses. -/
theorem errHoldsTheFirstErrorOfARun : Obligations.ErrHoldsTheFirstErrorOfARun := by
  intro ws rest s t hnone hp notInit hrun
  obtain ⟨answers, hanswers, herr⟩ := run_err_eq_firstErrorCode hp notInit hrun
  rw [herr, hnone, firstErrorCode_none, hanswers, List.drop_left]

/-! ### What an answer depends on -/

/-- Two calls from the same PHASE are related if what they do inside the phase is, and if their failures are. -/
theorem whenPhase_rel {R : Result → Result → Prop} {p : Phase} {s s' : State} {run run' : Engine → Result}
    (hp : s.engine.phase = s'.engine.phase) (inside : R (run s.engine) (run' s'.engine))
    (outside : R (raiseError .sequence s) (raiseError .sequence s')) :
    R (whenPhase p s run) (whenPhase p s' run') := by
  by_cases h : s.engine.phase = p
  · rw [whenPhase_in run h, whenPhase_in run' (hp ▸ h)]; exact inside
  · rw [whenPhase_out run h, whenPhase_out run' (hp ▸ h)]; exact outside

/-! ### Not on ERR (R28) -/

/-- Both calls answer next states that differ at most in ERR. -/
def AnswerSameButErr (o o' : Result) : Prop := ∃ t t', o = .next t ∧ o' = .next t' ∧ sameButErr t t'

/-- s with this ERR. -/
def withErr (err : Option ErrCode) (s : State) : State := { s with engine := { s.engine with err := err } }

theorem eq_withErr_of_sameButErr {s s' : State} (h : sameButErr s s') : s' = withErr s'.engine.err s := by
  obtain ⟨hS, hphase, hsqcnt, hpending, hresponses⟩ := h
  exact state_eq_of_fields (engine_eq_of_fields hS.symm hphase.symm hsqcnt.symm rfl) hpending.symm hresponses.symm

theorem raiseError_withErr (c : ErrCode) (err : Option ErrCode) (s : State) :
    AnswerSameButErr (raiseError c s) (raiseError c (withErr err s)) := ⟨_, _, rfl, rfl, rfl, rfl, rfl, rfl, rfl⟩

theorem complete_withErr {E : Engine} {r0 r1 : Byte} {err err' : Option ErrCode} {s : State} :
    AnswerSameButErr (complete E r0 r1 s) (complete { E with err := err' } r0 r1 (withErr err s)) :=
  ⟨_, _, rfl, rfl, rfl, rfl, rfl, rfl, rfl⟩

/-- Only RDSTATUS reads ERR. -/
theorem exec_withErr {i : Instr} (hi : i ≠ .rdstatus) (err : Option ErrCode) (s : State) :
    AnswerSameButErr (exec i s) (exec i (withErr err s)) := by
  have mapped : ∀ (k : Byte) (run run' : Fin 18 → Result), (∀ j, AnswerSameButErr (run j) (run' j)) →
      AnswerSameButErr (whenMapped k s run) (whenMapped k (withErr err s) run') := by
    intro k run run' h
    rcases Nat.lt_or_ge k.toNat 18 with hk | hk
    · rw [whenMapped_in run hk, whenMapped_in run' hk]; exact h _
    · rw [whenMapped_out run hk, whenMapped_out run' hk]; exact raiseError_withErr _ _ _
  cases i with
  | init => exact complete_withErr
  | absorb b0 b1 => unfold exec execAbsorb; exact whenPhase_rel rfl complete_withErr (raiseError_withErr _ _ _)
  | pad0 => unfold exec execPad0; exact whenPhase_rel rfl complete_withErr (raiseError_withErr _ _ _)
  | pad1 b => unfold exec execPad1; exact whenPhase_rel rfl complete_withErr (raiseError_withErr _ _ _)
  | squeeze => unfold exec execSqueeze; exact whenPhase_rel rfl complete_withErr (raiseError_withErr _ _ _)
  | permute => exact complete_withErr
  | gfmul a b => exact complete_withErr
  | rdstate k => exact mapped k _ _ fun j => complete_withErr
  | wrstate k v => exact mapped k _ _ fun j => complete_withErr
  | rdstatus => exact absurd rfl hi

theorem execWord_withErr {w : Word} (hw : w ≠ 0x00000009) (err : Option ErrCode) (s : State) :
    AnswerSameButErr (execWord w s) (execWord w (withErr err s)) := by
  cases hd : decode w with
  | error cause => rw [execWord_error hd, execWord_error hd]; exact raiseError_withErr _ _ _
  | ok i =>
    rw [execWord_ok hd, execWord_ok hd]
    refine exec_withErr ?_ err s
    rintro rfl
    exact hw ((eq_encode_of_decode hd (by simp)).trans encode_rdstatus)

/-- Settles O21: the second state is the first with another ERR, and the step takes the same act in both. -/
theorem errChangesNoOtherCommand : Obligations.ErrChangesNoOtherCommand := by
  intro s s' same notStatus
  rw [eq_withErr_of_sameButErr same]
  generalize s'.engine.err = err
  cases hp : s.pending with
  | nil =>
    have hp' : (withErr err s).pending = [] := hp
    exact ⟨s, _, step_of_pending_nil hp, step_of_pending_nil hp', rfl, rfl, rfl, rfl, rfl⟩
  | cons e rest =>
    have hp' : (withErr err s).pending = e :: rest := hp
    rw [step_of_pending_cons hp, step_of_pending_cons hp']
    cases e with
    | command w => exact execWord_withErr (fun hw => notStatus rest (by rw [hp, hw])) err { s with pending := rest }
    | reset => exact ⟨_, _, rfl, rfl, rfl, rfl, rfl, rfl, rfl⟩
    | commandCutByReset w => exact ⟨_, _, rfl, rfl, rfl, rfl, rfl, rfl, rfl⟩

/-! ### Not on the capacity part (R25) -/

/-- The states agree on PHASE, SQCNT, ERR and the responses: on all that the host sees but through S. -/
def SameButGrid (s s' : State) : Prop :=
  s.engine.phase = s'.engine.phase ∧ s.engine.sqcnt = s'.engine.sqcnt ∧ s.engine.err = s'.engine.err ∧
    s.responses = s'.responses

/-- Both calls answer next states that agree so. -/
def AnswerSameButGrid (o o' : Result) : Prop := ∃ t t', o = .next t ∧ o' = .next t' ∧ SameButGrid t t'

section
variable {s s' : State} (same : SameButGrid s s')
include same

theorem raiseError_sameButGrid (c : ErrCode) : AnswerSameButGrid (raiseError c s) (raiseError c s') := by
  obtain ⟨hphase, hsqcnt, herr, hresponses⟩ := same
  exact ⟨_, _, rfl, rfl, hphase, hsqcnt, by simp [herr], by simp [hresponses]⟩

theorem complete_sameButGrid {E F : Engine} {r0 r1 r0' r1' : Byte} (hphase : E.phase = F.phase)
    (hsqcnt : E.sqcnt = F.sqcnt) (herr : E.err = F.err) (h0 : r0 = r0') (h1 : r1 = r1') :
    AnswerSameButGrid (complete E r0 r1 s) (complete F r0' r1' s') := by
  obtain ⟨-, -, -, hresponses⟩ := same
  subst h0 h1
  exact ⟨_, _, rfl, rfl, hphase, hsqcnt, herr, by simp [hresponses]⟩

/-- The commands that take the message answer no byte of S. -/
theorem exec_message_sameButGrid {i : Instr} (hi : (∃ b0 b1, i = .absorb b0 b1) ∨ i = .pad0 ∨ ∃ b, i = .pad1 b) :
    AnswerSameButGrid (exec i s) (exec i s') := by
  have failed := raiseError_sameButGrid same .sequence
  have ⟨hphase, hsqcnt, herr, _⟩ := same
  rcases hi with ⟨b0, b1, rfl⟩ | rfl | ⟨b, rfl⟩ <;> unfold exec
  · unfold execAbsorb
    exact whenPhase_rel hphase (complete_sameButGrid same hphase hsqcnt herr rfl rfl) failed
  · unfold execPad0
    exact whenPhase_rel hphase (complete_sameButGrid same rfl rfl herr rfl rfl) failed
  · unfold execPad1
    exact whenPhase_rel hphase (complete_sameButGrid same rfl rfl herr rfl rfl) failed

/-- SQUEEZE answers bytes 0 and 1 of the state it emits from, and no other byte. -/
theorem exec_squeeze_sameButGrid (h0 : getByte (squeezeState s.engine) 0 = getByte (squeezeState s'.engine) 0)
    (h1 : getByte (squeezeState s.engine) 1 = getByte (squeezeState s'.engine) 1) :
    AnswerSameButGrid (exec .squeeze s) (exec .squeeze s') := by
  have ⟨hphase, hsqcnt, herr, _⟩ := same
  unfold exec execSqueeze
  refine whenPhase_rel hphase (complete_sameButGrid same ?_ ?_ herr h0 h1) (raiseError_sameButGrid same _)
  · simp only [hsqcnt, hphase]
  · simp only [hsqcnt]

end

theorem squeezeState_first {E : Engine} (h : E.sqcnt = 0) : squeezeState E = E.S := by simp [squeezeState, h]

theorem squeezeState_later {E : Engine} (h : E.sqcnt ≠ 0) : squeezeState E = P E.S :=
  if_pos (Nat.pos_of_ne_zero fun h0 => h (BitVec.eq_of_toNat_eq h0))

/-- The first SQUEEZE leaves S, and so does a SQUEEZE that fails (R154, R242). -/
theorem exec_squeeze_first_keeps_S {s t : State} (h : exec .squeeze s = .next t) (first : s.engine.sqcnt = 0) :
    t.engine.S = s.engine.S := by
  rcases exec_cases .squeeze s with ⟨F, r0, r1, completes, hexec⟩ | ⟨c, hexec⟩
  · rw [(complete_next (hexec.symm.trans h)).1]
    cases completes
    exact squeezeState_first first
  · rw [(raiseError_next (hexec.symm.trans h)).1]

/-- Settles O40: the commands answer alike because what they answer, bytes 0 and 1 of the emitting state at most, is the
same. -/
theorem spongeCommandsAnswerFromTheRatePart : Obligations.SpongeCommandsAnswerFromTheRatePart := by
  refine ⟨fun s s' i hi h0 h1 hphase hsqcnt herr hresponses => ?_,
    fun s s' later h0 h1 hphase hsqcnt herr hresponses => ?_⟩
  · have same : SameButGrid s s' := ⟨hphase, hsqcnt, herr, hresponses⟩
    by_cases squeeze : i = .squeeze ∧ s.engine.sqcnt = 0
    · obtain ⟨rfl, first⟩ := squeeze
      have first' : s'.engine.sqcnt = 0 := hsqcnt ▸ first
      obtain ⟨t, t', ht, ht', hp, hc, he, hr⟩ := exec_squeeze_sameButGrid same
        (by rw [squeezeState_first first, squeezeState_first first', h0])
        (by rw [squeezeState_first first, squeezeState_first first', h1])
      exact ⟨t, t', ht, ht', hr, hp, hc, he, fun _ =>
        ⟨exec_squeeze_first_keeps_S ht first, exec_squeeze_first_keeps_S ht' first'⟩⟩
    · have message : (∃ b0 b1, i = .absorb b0 b1) ∨ i = .pad0 ∨ ∃ b, i = .pad1 b := by
        simpa only [squeeze, or_false] using hi
      obtain ⟨t, t', ht, ht', hp, hc, he, hr⟩ := exec_message_sameButGrid same message
      refine ⟨t, t', ht, ht', hr, hp, hc, he, ?_⟩
      rintro rfl
      simp at message
  · have later' : s'.engine.sqcnt ≠ 0 := hsqcnt ▸ later
    obtain ⟨t, t', ht, ht', hp, hc, he, hr⟩ := exec_squeeze_sameButGrid ⟨hphase, hsqcnt, herr, hresponses⟩
      (by rw [squeezeState_later later, squeezeState_later later', h0])
      (by rw [squeezeState_later later, squeezeState_later later', h1])
    exact ⟨t, t', ht, ht', hr, hp, hc, he⟩

end Sys2Proof.Machine
end

section
/-! SUPPORT. The memory family (spec 20_memory.md): the one response of every command (R61, R76), the commands that
repeat (R58), the instances of a platform (R66, R215), and the byte transfer of a word (R55). -/

namespace Sys2Proof.Machine

/-! ### One response per command (R61, R76) -/

/-- R76's format, said of the response's bits. -/
theorem responseWellFormed_iff {resp : Word} : responseWellFormed resp = true ↔
    resp.extractLsb' 2 6 = 0 ∧ resp.extractLsb' 24 8 = 0 ∧
      (resp.extractLsb' 0 2 ≠ 0 → resp.extractLsb' 8 8 = 0 ∧ resp.extractLsb' 16 8 = 0) :=
  decide_eq_true_iff

/-- A command word, failing or not, answers exactly one response, in R76's format. -/
theorem TakesEffect.answers_one_wellFormed {s t : State} {w : Word} (effect : TakesEffect s t (.command w)) :
    ∃ resp, t.responses = s.responses ++ [resp] ∧ responseWellFormed resp = true := by
  cases effect with
  | completed spells engine answer => exact ⟨_, answer, okResponse_wellFormed _ _⟩
  | failed engine answer => exact ⟨_, answer, errorResponse_wellFormed _⟩

/-- Settles O11: the step answers a next state, and the word it takes off the pending acts answers one response. -/
theorem everyCommandReturnsOneResponse : Obligations.EveryCommandReturnsOneResponse := by
  intro s w rest hp
  obtain ⟨t, ht⟩ := step_answers_next s
  rcases step_takesEffect ht with ⟨idle, -⟩ | ⟨e, he, effect⟩
  · simp [idle] at hp
  obtain ⟨rfl, pending⟩ : e = .command w ∧ t.pending = rest := by simpa using he.symm.trans hp
  obtain ⟨resp, answer, wf⟩ := effect.answers_one_wellFormed
  exact ⟨t, resp, ht, pending, answer, responseWellFormed_iff.mp wf⟩

/-! ### The commands that repeat (R58) -/

/-- The converse of exec_cases: a command that can complete does. -/
theorem exec_of_completes {i : Instr} {s : State} {F : Engine} {r0 r1 : Byte} (h : Completes s.engine i F r0 r1) :
    exec i s = complete F r0 r1 s := by
  cases h with
  | absorb b0 b1 legal => simp only [exec, execAbsorb, whenPhase_in _ legal]
  | pad0 legal => simp only [exec, execPad0, whenPhase_in _ legal]
  | pad1 b legal => simp only [exec, execPad1, whenPhase_in _ legal]
  | squeeze legal => simp only [exec, execSqueeze, whenPhase_in _ legal]
  | rdstate k mapped => exact whenMapped_in _ mapped
  | wrstate k v mapped => exact whenMapped_in _ mapped
  | _ => rfl

theorem exec_rdstate_unmapped {k : Byte} (h : 18 ≤ k.toNat) (s : State) : exec (.rdstate k) s = raiseError .range s :=
  whenMapped_out _ h

theorem exec_wrstate_unmapped {k : Byte} (h : 18 ≤ k.toNat) (v : Byte) (s : State) :
    exec (.wrstate k v) s = raiseError .range s :=
  whenMapped_out _ h

@[simp] theorem setByte_setByte_same (S : Grid) (k : Fin 18) (v w : Byte) :
    setByte (setByte S k v) k w = setByte S k w := by
  simp [setByte]

/-- The latch keeps the first error, so a second one changes nothing (R203). -/
@[simp] theorem latchError_latchError (err : Option ErrCode) (c d : ErrCode) :
    latchError (latchError err c) d = latchError err c := by
  cases err <;> rfl

/-- R58's idempotent commands. -/
def Idempotent (i : Instr) : Prop :=
  i = .init ∨ (∃ k v, i = .wrstate k v) ∨ (∃ k, i = .rdstate k) ∨ i = .rdstatus ∨ ∃ a b, i = .gfmul a b

/-- Whether one of them fails does not depend on E: they are legal in every phase (R183), and only the index can be
wrong. -/
theorem Idempotent.always_completes_or_fails {i : Instr} (hi : Idempotent i) :
    (∀ E : Engine, ∃ F r0 r1, Completes E i F r0 r1) ∨ ∀ s : State, exec i s = raiseError .range s := by
  rcases hi with rfl | ⟨k, v, rfl⟩ | ⟨k, rfl⟩ | rfl | ⟨a, b, rfl⟩
  · exact .inl fun E => ⟨_, _, _, .init⟩
  · rcases Nat.lt_or_ge k.toNat 18 with hk | hk
    · exact .inl fun E => ⟨_, _, _, .wrstate k v hk⟩
    · exact .inr (exec_wrstate_unmapped hk v)
  · rcases Nat.lt_or_ge k.toNat 18 with hk | hk
    · exact .inl fun E => ⟨_, _, _, .rdstate k hk⟩
    · exact .inr (exec_rdstate_unmapped hk)
  · exact .inl fun E => ⟨_, _, _, .rdstatus⟩
  · exact .inl fun E => ⟨_, _, _, .gfmul a b⟩

/-- One that completes leaves an E in which it completes again, with the same E and the same result bytes. -/
theorem Completes.repeats {E F : Engine} {i : Instr} {r0 r1 : Byte} (h : Completes E i F r0 r1) (hi : Idempotent i) :
    Completes F i F r0 r1 := by
  rcases hi with rfl | ⟨k, v, rfl⟩ | ⟨k, rfl⟩ | rfl | ⟨a, b, rfl⟩
  · cases h; exact .init
  · cases h with
    | wrstate _ _ mapped =>
      simpa using Completes.wrstate (E := { E with S := setByte E.S ⟨k.toNat, mapped⟩ v }) k v mapped
  · cases h with
    | rdstate _ mapped => exact .rdstate k mapped
  · cases h; exact .rdstatus
  · cases h; exact .gfmul a b

/-- Settles O41: RDSTATUS and GFMUL complete in the E they found; each of the five completes again in the E it left, or
fails again with RANGE, which the ERR latch does not take twice. -/
theorem idempotentCommandsRepeat : Obligations.IdempotentCommandsRepeat := by
  intro s t i hi
  have idempotent : Idempotent i := hi
  refine ⟨fun reads h => ?_, fun h => ?_⟩
  · rcases reads with rfl | ⟨a, b, rfl⟩
    · exact (complete_next ((exec_of_completes .rdstatus).symm.trans h)).1
    · exact (complete_next ((exec_of_completes (.gfmul a b)).symm.trans h)).1
  · rcases idempotent.always_completes_or_fails with completes | fails
    · obtain ⟨F, r0, r1, first⟩ := completes s.engine
      obtain ⟨rfl, -, answer⟩ := complete_next ((exec_of_completes first).symm.trans h)
      exact ⟨_, _, exec_of_completes (first.repeats idempotent), rfl, answer, rfl⟩
    · obtain ⟨engine, -, answer⟩ := raiseError_next ((fails s).symm.trans h)
      exact ⟨_, _, fails t, by simp [engine], answer, rfl⟩

/-! ### The instances of a platform (R66, R215) -/

theorem platform_get_set {n : Nat} (p : Platform n) (j i : Fin n) (t : State) :
    (p.set j.val t j.isLt).get i = if i = j then t else p.get i := by
  simp only [Vector.get_eq_getElem, Vector.getElem_set, Fin.ext_iff, eq_comm]

/-- On a platform, engine j takes its own step and the others stay beside it. -/
theorem stepInstance_of_step {n : Nat} {j : Fin n} {p : Platform n} {t : State} (h : step (p.get j) = .next t) :
    stepInstance j p = .next (p.set j.val t j.isLt) := by
  simp only [stepInstance, h]

/-- Settles O42: both platforms take the same step of engine j and write it back at j alone. -/
theorem instancesAreIndependent : Obligations.InstancesAreIndependent := by
  intro n j p p' same
  obtain ⟨t, ht⟩ := step_answers_next (p.get j)
  refine ⟨_, _, stepInstance_of_step ht, stepInstance_of_step (by rw [same, ht]), ?_, fun i hij => ?_⟩
  · simp [platform_get_set]
  · simp [platform_get_set, hij]

end Sys2Proof.Machine

/-! ### The byte transfer of a word (R55) -/

namespace Sys2Proof

theorem transferBytes_eq_ofFn (w : Word) :
    transferBytes w = List.ofFn fun j : Fin 4 => w.extractLsb' (8 * j.val) 8 := rfl

/-- The word of four transfer bytes has byte j at its bits [8j+7 : 8j]. -/
theorem extractLsb'_wordOfTransfer (t0 t1 t2 t3 : Byte) (j : Fin 4) :
    (wordOfTransfer t0 t1 t2 t3).extractLsb' (8 * j.val) 8 = [t0, t1, t2, t3].get j := by
  match j with
  | 0 => exact BitVec.extractLsb'_append_eq_right
  | 1 => exact (BitVec.extractLsb'_append_eq_of_le (by simp)).trans BitVec.extractLsb'_append_eq_right
  | 2 =>
    exact ((BitVec.extractLsb'_append_eq_of_le (by simp)).trans
      (BitVec.extractLsb'_append_eq_of_le (by simp))).trans BitVec.extractLsb'_append_eq_right
  | 3 =>
    exact ((BitVec.extractLsb'_append_eq_of_le (by simp)).trans
      (BitVec.extractLsb'_append_eq_of_le (by simp))).trans BitVec.extractLsb'_append_eq_left

/-- Settles O6: the word is the one whose four bytes are the transfer's, D0 its byte 1 and D1 its byte 2. -/
theorem transferIsLittleEndian : Obligations.TransferIsLittleEndian := by
  intro t0 t1 t2 t3 rest
  have byte := extractLsb'_wordOfTransfer t0 t1 t2 t3
  have bytes : transferBytes (wordOfTransfer t0 t1 t2 t3) = [t0, t1, t2, t3] := by
    rw [transferBytes_eq_ofFn, funext byte, List.ofFn_get]
  refine ⟨wordOfTransfer t0 t1 t2 t3, rfl, bytes, fun j b hb => ?_, byte 1, byte 2⟩
  rw [← byte j, BitVec.getLsbD_extractLsb']
  simp [hb]

end Sys2Proof
end

section
/-! SUPPORT. The decoder as one condition on a word's fields (R70, R71, R79). From it: the two round trips, the opcode
table's rows, and the words of an opcode. -/

namespace Sys2Proof

open Sys2Proof.Laws.Spelling (opcode)

/-! ### The decoder, from the fields -/

/-- The data fields of the word hold the operands of the command, and 0 where R71 says that they must be 0. -/
def Carries (w : Word) : Instr → Prop
  | .init => d0 w = 0 ∧ d1 w = 0
  | .absorb b0 b1 => d0 w = b0 ∧ d1 w = b1
  | .pad0 => d0 w = 0 ∧ d1 w = 0
  | .pad1 b => d0 w = b ∧ d1 w = 0
  | .squeeze => d0 w = 0 ∧ d1 w = 0
  | .permute => d0 w = 0 ∧ d1 w = 0
  | .gfmul a b => lowNibble (d0 w) = a ∧ lowNibble (d1 w) = b
  | .rdstate k => d0 w = k ∧ d1 w = 0
  | .wrstate k v => d0 w = k ∧ d1 w = v
  | .rdstatus => d0 w = 0 ∧ d1 w = 0

theorem fields_of_decode {w : Word} {i : Instr} (h : decode w = .ok i) :
    rsv0 w = 0 ∧ rsv1 w = 0 ∧ op w = opcode i ∧ Carries w i := by
  unfold decode at h
  split at h
  next => cases h
  next reserved =>
    obtain ⟨h0, h1⟩ : rsv0 w = 0 ∧ rsv1 w = 0 := by simpa [not_or] using reserved
    have opIs : ∀ {o : Nibble}, (op w).toNat = o.toNat → op w = o := BitVec.eq_of_toNat_eq
    refine ⟨h0, h1, ?_⟩
    split at h
    case h_1 ho => obtain ⟨hd0, hd1, rfl⟩ := Machine.noOperand_ok h; exact ⟨opIs ho, hd0, hd1⟩
    case h_2 ho => cases h; exact ⟨opIs ho, rfl, rfl⟩
    case h_3 ho => obtain ⟨hd0, hd1, rfl⟩ := Machine.noOperand_ok h; exact ⟨opIs ho, hd0, hd1⟩
    case h_4 ho => obtain ⟨hd1, rfl⟩ := Machine.oneOperand_ok h; exact ⟨opIs ho, rfl, hd1⟩
    case h_5 ho => obtain ⟨hd0, hd1, rfl⟩ := Machine.noOperand_ok h; exact ⟨opIs ho, hd0, hd1⟩
    case h_6 ho => obtain ⟨hd0, hd1, rfl⟩ := Machine.noOperand_ok h; exact ⟨opIs ho, hd0, hd1⟩
    case h_7 ho => cases h; exact ⟨opIs ho, rfl, rfl⟩
    case h_8 ho => obtain ⟨hd1, rfl⟩ := Machine.oneOperand_ok h; exact ⟨opIs ho, rfl, hd1⟩
    case h_9 ho => cases h; exact ⟨opIs ho, rfl, rfl⟩
    case h_10 ho => obtain ⟨hd0, hd1, rfl⟩ := Machine.noOperand_ok h; exact ⟨opIs ho, hd0, hd1⟩
    case h_11 => cases h

theorem decode_of_fields {w : Word} {i : Instr} (h0 : rsv0 w = 0) (h1 : rsv1 w = 0) (ho : op w = opcode i)
    (carries : Carries w i) : decode w = .ok i := by
  cases i <;> obtain ⟨hd0, hd1⟩ := carries <;> simp [decode, noOperand, oneOperand, opcode, h0, h1, ho, hd0, hd1]

/-- A word spells i exactly when its reserved fields are 0, its opcode is i's and its data fields carry i's operands. -/
theorem decode_eq_ok_iff {w : Word} {i : Instr} :
    decode w = .ok i ↔ rsv0 w = 0 ∧ rsv1 w = 0 ∧ op w = opcode i ∧ Carries w i :=
  ⟨fields_of_decode, fun ⟨h0, h1, ho, carries⟩ => decode_of_fields h0 h1 ho carries⟩

/-! ### The round trips -/

theorem carries_encode (i : Instr) : Carries (encode i) i := by
  cases i <;> simp [Carries, encode]

theorem encode_spelling (i : Instr) : Laws.Spelling.Statement i := by
  cases i with
  | init => exact Laws.Spelling.init
  | absorb b0 b1 => exact Laws.Spelling.absorb b0 b1
  | pad0 => exact Laws.Spelling.pad0
  | pad1 b => exact Laws.Spelling.pad1 b
  | squeeze => exact Laws.Spelling.squeeze
  | permute => exact Laws.Spelling.permute
  | gfmul a b => exact Laws.Spelling.gfmul a b
  | rdstate k => exact Laws.Spelling.rdstate k
  | wrstate k v => exact Laws.Spelling.wrstate k v
  | rdstatus => exact Laws.Spelling.rdstatus

/-- Settles O2: the encoded word's fields are those that spell the command. -/
theorem decodeOfEncodeIsTheCommand : Obligations.DecodeOfEncodeIsTheCommand := by
  intro i
  obtain ⟨ho, h0, h1⟩ := encode_spelling i
  exact decode_of_fields h0 h1 ho (carries_encode i)

section
variable (v w : Word)

@[simp] theorem op_and : op (v &&& w) = op v &&& op w := BitVec.extractLsb'_and
@[simp] theorem rsv0_and : rsv0 (v &&& w) = rsv0 v &&& rsv0 w := BitVec.extractLsb'_and
@[simp] theorem d0_and : d0 (v &&& w) = d0 v &&& d0 w := BitVec.extractLsb'_and
@[simp] theorem d1_and : d1 (v &&& w) = d1 v &&& d1 w := BitVec.extractLsb'_and
@[simp] theorem rsv1_and : rsv1 (v &&& w) = rsv1 v &&& rsv1 w := BitVec.extractLsb'_and

end

theorem nibbleByte_lowNibble (b : Byte) : nibbleByte (lowNibble b) = b &&& 0x0F := by revert b; decide

theorem op_eq_six_iff_gfmul {w : Word} {i : Instr} (h : decode w = .ok i) : op w = 0x6 ↔ ∃ a b, i = .gfmul a b := by
  rw [(fields_of_decode h).2.2.1]
  cases i <;> simp [opcode]

/-- Settles O3: the two words have the same five fields; only GFMUL's data bytes lose bits. -/
theorem encodeOfDecodeIsTheWord : Obligations.EncodeOfDecodeIsTheWord := by
  intro w i h
  by_cases gfmul : ∃ a b, i = .gfmul a b
  · have hop : w.extractLsb' 0 4 = 6 := (op_eq_six_iff_gfmul h).mpr gfmul
    obtain ⟨a, b, rfl⟩ := gfmul
    obtain ⟨h0, h1, ho, rfl, rfl⟩ := fields_of_decode h
    rw [if_pos hop]
    refine word_eq_of_fields ?_ ?_ ?_ ?_ ?_
    · rw [encode, op_formatC, op_and, op, hop]; rfl
    · rw [encode, rsv0_formatC, rsv0_and, h0]; rfl
    · rw [encode, d0_formatC, d0_and, nibbleByte_lowNibble]; rfl
    · rw [encode, d1_formatC, d1_and, nibbleByte_lowNibble]; rfl
    · rw [encode, rsv1_formatC, rsv1_and, h1]; rfl
  · have hop : ¬ w.extractLsb' 0 4 = 6 := fun ho => gfmul ((op_eq_six_iff_gfmul h).mp ho)
    rw [if_neg hop, Machine.eq_encode_of_decode h fun a b hi => gfmul ⟨a, b, hi⟩]
    exact BitVec.and_allOnes.symm

/-! ### The opcode table -/

/-- The command of a mnemonic whose operands are read from the data bytes b0 and b1 (R75). -/
def commandWith : Mnemonic → Byte → Byte → Instr
  | .init, _, _ => .init
  | .absorb, b0, b1 => .absorb b0 b1
  | .pad0, _, _ => .pad0
  | .pad1, b0, _ => .pad1 b0
  | .squeeze, _, _ => .squeeze
  | .permute, _, _ => .permute
  | .gfmul, b0, b1 => .gfmul (lowNibble b0) (lowNibble b1)
  | .rdstate, b0, _ => .rdstate b0
  | .wrstate, b0, b1 => .wrstate b0 b1
  | .rdstatus, _, _ => .rdstatus

@[simp] theorem mnemonicOf_commandWith (m : Mnemonic) (b0 b1 : Byte) : mnemonicOf (commandWith m b0 b1) = m := by
  cases m <;> rfl

/-- A word that decodes gives the command of its mnemonic and its data bytes. -/
theorem eq_commandWith_of_decode {w : Word} {i : Instr} (h : decode w = .ok i) :
    i = commandWith (mnemonicOf i) (d0 w) (d1 w) := by
  obtain ⟨-, -, -, carries⟩ := fields_of_decode h
  cases i <;> obtain ⟨hd0, hd1⟩ := carries <;> simp [commandWith, mnemonicOf, hd0, hd1]

/-- A masked word is compared field by field. -/
theorem and_eq_iff_fields {w mask value : Word} : w &&& mask = value ↔
    op w &&& op mask = op value ∧ rsv0 w &&& rsv0 mask = rsv0 value ∧ d0 w &&& d0 mask = d0 value ∧
      d1 w &&& d1 mask = d1 value ∧ rsv1 w &&& rsv1 mask = rsv1 value := by
  constructor
  · rintro rfl
    simp
  · rintro ⟨ho, h0, hd0, hd1, h1⟩
    exact word_eq_of_fields (by simpa using ho) (by simpa using h0) (by simpa using hd0) (by simpa using hd1)
      (by simpa using h1)

section
variable {w : Word} {o : Nibble}

/-- A mask that keeps OP and the reserved fields compares those, and of D0 and D1 the bits it keeps. -/
theorem and_eq_formatC_iff {mask : Word} (ho : op mask = BitVec.allOnes 4) (h0 : rsv0 mask = BitVec.allOnes 4)
    (h1 : rsv1 mask = BitVec.allOnes 8) : w &&& mask = formatC o 0 0 ↔
      rsv0 w = 0 ∧ rsv1 w = 0 ∧ op w = o ∧ d0 w &&& d0 mask = 0 ∧ d1 w &&& d1 mask = 0 := by
  have fields : w &&& mask = formatC o 0 0 ↔
      op w = o ∧ rsv0 w = 0 ∧ d0 w &&& d0 mask = 0 ∧ d1 w &&& d1 mask = 0 ∧ rsv1 w = 0 := by
    simp only [and_eq_iff_fields, ho, h0, h1, BitVec.and_allOnes, op_formatC, rsv0_formatC, d0_formatC, d1_formatC,
      rsv1_formatC]
  rw [fields]
  tauto

/-- R71's three masks: for no operand, for one in D0, and for one in each data byte. -/
theorem and_noOperandMask_iff : w &&& 0xFFFFFFFF = formatC o 0 0 ↔
    rsv0 w = 0 ∧ rsv1 w = 0 ∧ op w = o ∧ d0 w = 0 ∧ d1 w = 0 := by
  rw [and_eq_formatC_iff rfl rfl rfl, show d0 0xFFFFFFFF = BitVec.allOnes 8 from rfl,
    show d1 0xFFFFFFFF = BitVec.allOnes 8 from rfl, BitVec.and_allOnes, BitVec.and_allOnes]

theorem and_oneOperandMask_iff : w &&& 0xFFFF00FF = formatC o 0 0 ↔
    rsv0 w = 0 ∧ rsv1 w = 0 ∧ op w = o ∧ d1 w = 0 := by
  rw [and_eq_formatC_iff rfl rfl rfl, show d0 0xFFFF00FF = 0#8 from rfl,
    show d1 0xFFFF00FF = BitVec.allOnes 8 from rfl, BitVec.and_zero, BitVec.and_allOnes]
  simp

theorem and_twoOperandMask_iff : w &&& 0xFF0000FF = formatC o 0 0 ↔
    rsv0 w = 0 ∧ rsv1 w = 0 ∧ op w = o := by
  rw [and_eq_formatC_iff rfl rfl rfl, show d0 0xFF0000FF = 0#8 from rfl, show d1 0xFF0000FF = 0#8 from rfl,
    BitVec.and_zero, BitVec.and_zero]
  simp

end

/-- A row spells exactly the words that decode to the command of its mnemonic. -/
theorem opcodeRow_spells_iff {r : OpcodeRow} (hr : r ∈ opcodeTable) {w : Word} :
    r.spells w ↔ decode w = .ok (commandWith r.mnemonic (d0 w) (d1 w)) := by
  rw [decode_eq_ok_iff]
  simp only [opcodeTable, List.mem_cons, List.not_mem_nil, or_false] at hr
  rcases hr with rfl | rfl | rfl | rfl | rfl | rfl | rfl | rfl | rfl | rfl
  · exact and_noOperandMask_iff (o := 0x0)
  · exact (and_twoOperandMask_iff (o := 0x1)).trans (by simp [commandWith, Carries, opcode])
  · exact and_noOperandMask_iff (o := 0x2)
  · exact (and_oneOperandMask_iff (o := 0x3)).trans (by simp [commandWith, Carries, opcode])
  · exact and_noOperandMask_iff (o := 0x4)
  · exact and_noOperandMask_iff (o := 0x5)
  · exact (and_twoOperandMask_iff (o := 0x6)).trans (by simp [commandWith, Carries, opcode])
  · exact (and_oneOperandMask_iff (o := 0x7)).trans (by simp [commandWith, Carries, opcode])
  · exact (and_twoOperandMask_iff (o := 0x8)).trans (by simp [commandWith, Carries, opcode])
  · exact and_noOperandMask_iff (o := 0x9)

theorem exists_opcodeRow (i : Instr) : ∃ r ∈ opcodeTable, r.mnemonic = mnemonicOf i ∧ op r.value = opcode i := by
  cases i <;> simp [opcodeTable, opcode, mnemonicOf, op]

/-- Settles O4: every command has a row of its mnemonic, and opcodeRow_spells_iff says which words a row spells. -/
theorem opcodeTableIsTheDecoder : Obligations.OpcodeTableIsTheDecoder := by
  refine fun w => ⟨fun i h => ?_, fun r hr spells => ?_⟩
  · obtain ⟨r, hr, hm, -⟩ := exists_opcodeRow i
    refine ⟨r, hr, hm, (opcodeRow_spells_iff hr).mpr ?_⟩
    rw [hm, ← eq_commandWith_of_decode h, h]
  · exact ⟨_, (opcodeRow_spells_iff hr).mp spells, mnemonicOf_commandWith _ _ _⟩

/-! ### The words of an opcode -/

theorem opcodeRow_eq_of_op : ∀ r ∈ opcodeTable, ∀ r' ∈ opcodeTable, op r.value = op r'.value → r = r' := by decide

/-- The words with a row's opcode: those the row spells decode to the command of its mnemonic, no other decodes. -/
theorem encodedAs_opcodeRow {r : OpcodeRow} (hr : r ∈ opcodeTable) :
    Machine.encodedAs (op r.value) r.value r.mask (commandWith r.mnemonic) := by
  refine fun w ho => ⟨(opcodeRow_spells_iff hr).mp, fun notSpelled => ?_⟩
  cases hd : decode w with
  | error cause => exact ⟨cause, rfl⟩
  | ok i =>
    obtain ⟨r', hr', hm, ho'⟩ := exists_opcodeRow i
    obtain ⟨-, -, hop, -⟩ := fields_of_decode hd
    obtain rfl : r = r' := opcodeRow_eq_of_op r hr r' hr' (ho.symm.trans (hop.trans ho'.symm))
    refine absurd ((opcodeRow_spells_iff hr).mpr ?_) notSpelled
    rw [hm, ← eq_commandWith_of_decode hd, hd]

end Sys2Proof
end

section
/-! SUPPORT. The spec's example words (R84), and GFMUL's answer (R107). -/

namespace Sys2Proof.Machine

/-! ### Answers, as the statements write them -/

theorem okResponse_eq_okWord (r0 r1 : Byte) : okResponse r0 r1 = okWord r0 r1 :=
  BitVec.append_assoc (x₁ := 0#8 ++ r1 ++ r0) (x₂ := 0#6) (x₃ := 0#2)

theorem errorResponse_eq_code (c : ErrCode) : errorResponse c = c.code.setWidth 32 := by cases c <;> decide

/-- A command that fails answers a next state in which it failed with its code (R203). -/
theorem raiseError_failedWith (c : ErrCode) (s : State) : ∃ t, raiseError c s = .next t ∧ failedWith c s t := by
  refine ⟨_, rfl, rfl, rfl, rfl, rfl, fun none => ?_, fun some => ?_, ?_⟩
  · simp [none]
  · obtain ⟨d, hd⟩ := Option.ne_none_iff_exists'.mp some
    simp [hd]
  · simp [errorResponse_eq_code]

/-- Settles O1: the decoder evaluated on each word, and the RANGE failure of the index 18. -/
theorem specExampleWordsDecode : Obligations.SpecExampleWordsDecode := by
  have rdstate18 : ∀ s : State, ∃ t, exec (.rdstate 18) s = .next t ∧ failedWith .range s t := by
    intro s
    rw [exec_rdstate_unmapped (by decide)]
    exact raiseError_failedWith .range s
  exact ⟨by decide, by decide, by decide, by decide, by decide, by decide, rdstate18, by decide, by decide, by decide,
    by decide⟩

/-- Settles O34: GFMUL completes in the E it found, and its words are those of its row. -/
theorem gfmulAnswersTheProduct : Obligations.GfmulAnswersTheProduct := by
  constructor
  · intro s a b
    refine ⟨_, exec_of_completes (.gfmul a b), rfl, rfl, ?_⟩
    simp [okResponse_eq_okWord]
  · exact encodedAs_opcodeRow (r := ⟨.gfmul, 0x00000006, 0xFF0000FF⟩) (by decide)

end Sys2Proof.Machine
end

section
/-! SUPPORT. HASH m by index (R82, R156). -/

namespace Sys2Proof.Machine

theorem length_messageCommands (m : List Byte) : (messageCommands m).length = m.length / 2 + 1 := by
  induction m using messageCommands.induct with
  | case1 m0 m1 rest ih =>
    rw [messageCommands, List.length_cons, ih, List.length_cons, List.length_cons]
    omega
  | case2 b => simp [messageCommands]
  | case3 => simp [messageCommands]

/-- Whole block k is absorbed by command k. -/
theorem messageCommands_block {m : List Byte} {k : Nat} (hk : k < m.length / 2) :
    (messageCommands m)[k]? = some (.absorb (m.getD (2 * k) 0) (m.getD (2 * k + 1) 0)) := by
  induction m using messageCommands.induct generalizing k with
  | case1 m0 m1 rest ih =>
    cases k with
    | zero => simp [messageCommands]
    | succ k =>
      have hk' : k < rest.length / 2 := by simp at hk; omega
      simpa [messageCommands, Nat.mul_add] using ih hk'
  | case2 b => simp at hk
  | case3 => simp at hk

/-- The command after the whole blocks pads: PAD1 takes the byte left over from an odd message. -/
theorem messageCommands_padding (m : List Byte) : (messageCommands m)[m.length / 2]? =
    some (if m.length % 2 = 1 then .pad1 (m.getD (m.length - 1) 0) else .pad0) := by
  induction m using messageCommands.induct with
  | case1 m0 m1 rest ih =>
    have half : (m0 :: m1 :: rest).length / 2 = rest.length / 2 + 1 := by simp only [List.length_cons]; omega
    have parity : (m0 :: m1 :: rest).length % 2 = rest.length % 2 := by simp only [List.length_cons]; omega
    rw [half, parity, messageCommands, List.getElem?_cons_succ, ih]
    by_cases odd : rest.length % 2 = 1
    · have last : (m0 :: m1 :: rest).length - 1 = (rest.length - 1) + 2 := by simp only [List.length_cons]; omega
      rw [last]
      simp [odd]
    · simp [odd]
  | case2 b => simp [messageCommands]
  | case3 => simp [messageCommands]

/-- Settles O58: INIT comes first, the message's commands are at 1 on, and the eight SQUEEZEs follow them. -/
theorem hashExpandsToItsCommands : Obligations.HashExpandsToItsCommands := by
  intro m
  have length := length_messageCommands m
  have message : ∀ {k : Nat}, k ≤ m.length / 2 → (hashCommands m)[1 + k]? = (messageCommands m)[k]? := by
    intro k hk
    rw [hashCommands, Nat.add_comm, List.getElem?_cons_succ, List.getElem?_append_left (by omega)]
  refine ⟨?_, rfl, fun k hk => ?_, ?_, fun j hj => ?_⟩
  · simp [hashCommands, length]; omega
  · rw [message hk.le, messageCommands_block hk]
  · rw [message le_rfl, messageCommands_padding]
  · have index : 2 + m.length / 2 + j = (messageCommands m).length + j + 1 := by omega
    rw [hashCommands, index, List.getElem?_cons_succ, List.getElem?_append_right (by omega), Nat.add_sub_cancel_left,
      List.getElem?_replicate_of_lt hj]

end Sys2Proof.Machine
end

section
/-! SUPPORT. The assembler's lines (R81, R82): the operands' values, and the command a line gives. -/

namespace Sys2Proof.Machine

/-! ### Operands and their values -/

/-- An operand stands for the number written, or for the code of the ASCII character quoted (R81). -/
theorem operandValue_eq_some_iff {o : AsmOperand} {n : Nat} :
    o.value = some n ↔ o = .num n ∨ ∃ c, o = .ascii c ∧ c.toNat = n ∧ n < 128 := by
  cases o with
  | num k => simp [AsmOperand.value]
  | ascii c =>
    by_cases ascii : c.toNat < 128
    · simp only [AsmOperand.value, if_pos ascii, Option.some.injEq, reduceCtorEq, false_or, AsmOperand.ascii.injEq]
      exact ⟨fun h => ⟨c, rfl, h, h ▸ ascii⟩, fun ⟨_, hc, h, _⟩ => hc ▸ h⟩
    · simp only [AsmOperand.value, if_neg ascii, reduceCtorEq, false_or, AsmOperand.ascii.injEq, false_iff]
      rintro ⟨_, rfl, rfl, h⟩
      exact ascii h

/-- The operands' values are these numbers, in order. -/
def HaveValues (operands : List AsmOperand) (ns : List Nat) : Prop :=
  List.Forall₂ (fun o n => o.value = some n) operands ns

/-- The numbers are as many as the bounds, and each is within its own. -/
def WithinBounds (ns bounds : List Nat) : Prop := List.Forall₂ (· ≤ ·) ns bounds

theorem operandsWithin_iff {bounds : List Nat} {operands : List AsmOperand} :
    operandsWithin bounds operands = true ↔ ∃ ns, HaveValues operands ns ∧ WithinBounds ns bounds := by
  constructor
  · intro h
    induction bounds, operands using operandsWithin.induct with
    | case1 => exact ⟨[], .nil, .nil⟩
    | case2 b bounds o operands ih =>
      cases hv : o.value with
      | none => simp [operandsWithin, hv] at h
      | some n =>
        obtain ⟨hn, hrest⟩ : n ≤ b ∧ operandsWithin bounds operands = true := by simpa [operandsWithin, hv] using h
        obtain ⟨ns, values, within⟩ := ih hrest
        exact ⟨n :: ns, .cons hv values, .cons hn within⟩
    | case3 => cases h
    | case4 => cases h
  · rintro ⟨ns, values, within⟩
    induction values generalizing bounds with
    | nil => cases within; rfl
    | cons hv _ ih =>
      obtain _ | ⟨hn, within⟩ := within
      simp [operandsWithin, hv, hn, ih within]

theorem HaveValues.filterMap_value {operands : List AsmOperand} {ns : List Nat} (h : HaveValues operands ns) :
    operands.filterMap AsmOperand.value = ns := by
  induction h with
  | nil => rfl
  | cons hv _ ih => rw [List.filterMap_cons_some hv, ih]

theorem operandNumbers_withinBounds (i : Instr) : WithinBounds (operandNumbers i) (mnemonicOf i).operandBounds := by
  have byte : ∀ b : Byte, b.toNat ≤ 0xFF := fun b => Nat.le_of_lt_succ b.isLt
  have nibble : ∀ n : Nibble, n.toNat ≤ 0xF := fun n => Nat.le_of_lt_succ n.isLt
  cases i <;> simp [WithinBounds, operandNumbers, mnemonicOf, Mnemonic.operandBounds, byte, nibble]

/-- Numbers within a mnemonic's bounds are the operands of one of its commands. -/
theorem exists_command_of_withinBounds {m : Mnemonic} {ns : List Nat} (h : WithinBounds ns m.operandBounds) :
    ∃ i, mnemonicOf i = m ∧ operandNumbers i = ns := by
  have byte : ∀ {x : Nat}, x ≤ 0xFF → ∃ b : Byte, b.toNat = x :=
    fun hx => ⟨BitVec.ofNat 8 _, Nat.mod_eq_of_lt (Nat.lt_succ_of_le hx)⟩
  have nibble : ∀ {x : Nat}, x ≤ 0xF → ∃ n : Nibble, n.toNat = x :=
    fun hx => ⟨BitVec.ofNat 4 _, Nat.mod_eq_of_lt (Nat.lt_succ_of_le hx)⟩
  match m, h with
  | .init, .nil => exact ⟨.init, rfl, rfl⟩
  | .absorb, .cons hx (.cons hy .nil) =>
    obtain ⟨⟨b0, rfl⟩, ⟨b1, rfl⟩⟩ := And.intro (byte hx) (byte hy)
    exact ⟨.absorb b0 b1, rfl, rfl⟩
  | .pad0, .nil => exact ⟨.pad0, rfl, rfl⟩
  | .pad1, .cons hx .nil =>
    obtain ⟨b, rfl⟩ := byte hx
    exact ⟨.pad1 b, rfl, rfl⟩
  | .squeeze, .nil => exact ⟨.squeeze, rfl, rfl⟩
  | .permute, .nil => exact ⟨.permute, rfl, rfl⟩
  | .gfmul, .cons hx (.cons hy .nil) =>
    obtain ⟨⟨a, rfl⟩, ⟨b, rfl⟩⟩ := And.intro (nibble hx) (nibble hy)
    exact ⟨.gfmul a b, rfl, rfl⟩
  | .rdstate, .cons hx .nil =>
    obtain ⟨k, rfl⟩ := byte hx
    exact ⟨.rdstate k, rfl, rfl⟩
  | .wrstate, .cons hx (.cons hy .nil) =>
    obtain ⟨⟨k, rfl⟩, ⟨v, rfl⟩⟩ := And.intro (byte hx) (byte hy)
    exact ⟨.wrstate k v, rfl, rfl⟩
  | .rdstatus, .nil => exact ⟨.rdstatus, rfl, rfl⟩

theorem commandOf_operandNumbers (i : Instr) : commandOf (mnemonicOf i) (operandNumbers i) = some i := by
  cases i <;> simp [commandOf, mnemonicOf, operandNumbers]

/-! ### Lines -/

/-- A line with a command's mnemonic and operands that stand for its operands assembles to it. -/
theorem assemble_of_haveValues {i : Instr} {operands : List AsmOperand} (h : HaveValues operands (operandNumbers i)) :
    assemble (.command (mnemonicOf i) operands) = some [i] := by
  have within := operandsWithin_iff.mpr ⟨_, h, operandNumbers_withinBounds i⟩
  simp only [assemble, if_pos within, h.filterMap_value, commandOf_operandNumbers, Option.map_some]

theorem exists_command_of_wellFormed {m : Mnemonic} {operands : List AsmOperand}
    (h : (AsmLine.command m operands).wellFormed = true) :
    ∃ i, mnemonicOf i = m ∧ HaveValues operands (operandNumbers i) := by
  obtain ⟨ns, values, bounds⟩ := operandsWithin_iff.mp h
  obtain ⟨i, hm, rfl⟩ := exists_command_of_withinBounds bounds
  exact ⟨i, hm, values⟩

theorem assemble_eq_none_of_illFormed {m : Mnemonic} {operands : List AsmOperand}
    (h : (AsmLine.command m operands).wellFormed = false) : assemble (.command m operands) = none :=
  if_neg (Bool.eq_false_iff.mp h)

/-- Exactly the well-formed lines assemble. -/
theorem assembles_iff_wellFormed (line : AsmLine) : (∃ cs, assemble line = some cs) ↔ line.wellFormed = true := by
  cases line with
  | hash message => exact ⟨fun _ => rfl, fun _ => ⟨_, rfl⟩⟩
  | command m operands =>
    cases wf : (AsmLine.command m operands).wellFormed with
    | false => simp [assemble_eq_none_of_illFormed wf]
    | true =>
      obtain ⟨i, rfl, values⟩ := exists_command_of_wellFormed wf
      simp [assemble_of_haveValues values]

/-- Settles O7: a well-formed line's operands are those of a command, which is the one it assembles to. -/
theorem assemblerTakesWellFormedLinesOnly : Obligations.AssemblerTakesWellFormedLinesOnly := by
  refine ⟨assembles_iff_wellFormed, fun x y wide => ?_, fun m operands wf => ?_, fun message => rfl⟩
  · refine assemble_eq_none_of_illFormed ?_
    have outside : x ≤ 0xF → ¬ y ≤ 0xF := by omega
    simpa [AsmLine.wellFormed, Mnemonic.operandBounds, operandsWithin, AsmOperand.value] using outside
  · obtain ⟨i, rfl, values⟩ := exists_command_of_wellFormed wf
    exact ⟨i, assemble_of_haveValues values, rfl, values.imp fun _ _ => operandValue_eq_some_iff.mp,
      decodeOfEncodeIsTheCommand i⟩

end Sys2Proof.Machine
end

section
/-! SUPPORT. The text of a line (R81): the operands' texts, and what a line of a mnemonic and operands parses to. -/

namespace Sys2Proof.Machine

/-! ### Numbers -/

theorem digitValue_hexDigit (n : Nibble) : digitValue 16 (hexDigit n) = some n.toNat := by revert n; decide

theorem digitValue_of_isDigit {c : Char} (h : c.isDigit = true) : digitValue 10 c = some (c.toNat - '0'.toNat) := by
  have range : 48 ≤ c.toNat ∧ c.toNat ≤ 57 := Char.isDigit_iff_toNat.mp h
  have below : c.toNat - 48 < 10 := by omega
  simp [digitValue, range, below]

/-- What may follow an operand: nothing, or the comma before the next one. -/
def EndsOperand (rest : List Char) : Prop := rest = [] ∨ ∃ more, rest = ',' :: more

theorem takeDigits_end {rest : List Char} (h : EndsOperand rest) {base : Nat} (acc : Nat) :
    takeDigits base acc rest = (acc, rest) := by
  rcases h with rfl | ⟨more, rfl⟩
  · rfl
  · rfl

theorem takeDigits_decimal {digits rest : List Char} (decimal : ∀ c ∈ digits, c.isDigit = true)
    (h : EndsOperand rest) (acc : Nat) : takeDigits 10 acc (digits ++ rest) = (Nat.ofDigitChars 10 digits acc, rest) := by
  induction digits generalizing acc with
  | nil => exact takeDigits_end h acc
  | cons c digits ih =>
    rw [List.cons_append, takeDigits, digitValue_of_isDigit (decimal c (by simp)), Nat.ofDigitChars_cons]
    exact ih (fun d hd => decimal d (by simp [hd])) _

/-! ### One operand -/

/-- The text spells the operand: it starts with no space, and the assembler reads the operand from it, up to the end of
the line or the next comma. -/
def SpellsOperand (text : List Char) (o : AsmOperand) : Prop :=
  (∃ c cs, text = c :: cs ∧ c ≠ ' ') ∧ ∀ rest, EndsOperand rest → parseOperand (text ++ rest) = some (o, rest)

theorem byteText_spellsOperand (b : Byte) : SpellsOperand (byteText b) (.num b.toNat) := by
  have nibbles : 16 * (hi b).toNat + (lo b).toNat = b.toNat := by revert b; decide
  refine ⟨⟨_, _, rfl, by decide⟩, fun rest h => ?_⟩
  simp [byteText, parseOperand, parseNumber, takeDigits, digitValue_hexDigit, takeDigits_end h, nibbles]

theorem nibbleText_spellsOperand (n : Nibble) : SpellsOperand (nibbleText n) (.num n.toNat) := by
  refine ⟨⟨_, _, rfl, by decide⟩, fun rest h => ?_⟩
  simp [nibbleText, parseOperand, parseNumber, digitValue_hexDigit, takeDigits_end h]

theorem quoted_spellsOperand (c : Char) : SpellsOperand [quoteMark, c, quoteMark] (.ascii c) :=
  ⟨⟨_, _, rfl, by decide⟩, fun _ _ => rfl⟩

/-- A text that starts with a digit, and not with 0x, is read as a decimal number. -/
theorem parseOperand_of_isDigit {c : Char} {cs : List Char} (digit : c.isDigit = true)
    (notHex : ∀ more, cs ≠ 'x' :: more) :
    parseOperand (c :: cs) = (parseNumber 10 (c :: cs)).map fun r => (.num r.1, r.2) := by
  have notQuote : c ≠ quoteMark := by rintro rfl; revert digit; decide
  unfold parseOperand
  split
  next heq => cases heq; exact absurd rfl (notHex _)
  next heq => cases heq; simp [notQuote]
  next => rfl

/-- No x stands after digits that end there. -/
theorem digits_append_ne_x {digits rest : List Char} (decimal : ∀ c ∈ digits, c.isDigit = true)
    (h : EndsOperand rest) (more : List Char) : digits ++ rest ≠ 'x' :: more := by
  cases digits with
  | nil => rcases h with rfl | ⟨next, rfl⟩ <;> simp
  | cons d digits =>
    have digit := decimal d (by simp)
    rw [List.cons_append]
    rintro ⟨⟩
    revert digit
    decide

theorem decimal_spellsOperand (n : Nat) : SpellsOperand (Nat.toDigits 10 n) (.num n) := by
  have decimal : ∀ c ∈ Nat.toDigits 10 n, c.isDigit = true := fun c =>
    Nat.isDigit_of_mem_toDigits (by omega) (by omega)
  obtain ⟨c, cs, hcs⟩ := List.exists_cons_of_ne_nil (Nat.toDigits_ne_nil (n := n) (b := 10))
  have value : Nat.ofDigitChars 10 (c :: cs) 0 = n := hcs ▸ Nat.ofDigitChars_ten_toDigits
  rw [hcs] at decimal ⊢
  obtain ⟨digit, digits⟩ := List.forall_mem_cons.mp decimal
  refine ⟨⟨c, cs, rfl, by rintro rfl; revert digit; decide⟩, fun rest h => ?_⟩
  rw [List.cons_append, parseOperand_of_isDigit digit (digits_append_ne_x digits h), parseNumber,
    digitValue_of_isDigit digit, Option.map_some, takeDigits_decimal digits h, Option.map_some, ← value,
    Nat.ofDigitChars_cons, Nat.mul_zero, Nat.zero_add]

/-! ### The operands of a line -/

section
variable {text : List Char} {o : AsmOperand}

theorem SpellsOperand.skipSpaces_append (h : SpellsOperand text o) (rest : List Char) :
    skipSpaces (text ++ rest) = text ++ rest := by
  obtain ⟨⟨c, cs, rfl, hc⟩, -⟩ := h
  exact if_neg hc

theorem parseOperands_last (h : SpellsOperand text o) (fuel : Nat) : parseOperands (fuel + 1) text = some [o] := by
  have start := h.skipSpaces_append []
  have read := h.2 [] (.inl rfl)
  rw [List.append_nil] at start read
  simp [parseOperands, start, read, skipSpaces]

theorem parseOperands_skipSpace (fuel : Nat) (more : List Char) :
    parseOperands fuel (' ' :: more) = parseOperands fuel more := by
  cases fuel <;> rfl

theorem parseOperands_comma (h : SpellsOperand text o) (fuel : Nat) (more : List Char) :
    parseOperands (fuel + 1) (text ++ ',' :: more) = (parseOperands fuel more).map fun os => o :: os := by
  have read := h.2 (',' :: more) (.inr ⟨more, rfl⟩)
  simp [parseOperands, h.skipSpaces_append, read, skipSpaces]

end

/-! ### A line -/

theorem skipSpaces_mnemonicText (m : Mnemonic) (rest : List Char) :
    skipSpaces (mnemonicText m ++ rest) = mnemonicText m ++ rest := by
  cases m <;> rfl

theorem takeWord_mnemonicText_space (m : Mnemonic) (rest : List Char) :
    takeWord (mnemonicText m ++ ' ' :: rest) = (mnemonicText m, ' ' :: rest) := by
  cases m <;> rfl

theorem find_mnemonicText (m : Mnemonic) :
    (mnemonics.find? fun m' => mnemonicText m' = mnemonicText m) = some m := by
  cases m <;> rfl

/-- A mnemonic alone is a line without operands. -/
theorem parseLine_mnemonicText (m : Mnemonic) : parseLine (mnemonicText m) = some (.command m []) := by
  cases m <;> rfl

/-- A mnemonic, a space and the text of operands is a line with those operands. -/
theorem parseLine_operands (m : Mnemonic) {text : List Char} {o : AsmOperand} (h : SpellsOperand text o)
    (rest : List Char) : parseLine (mnemonicText m ++ ' ' :: (text ++ rest)) =
      (parseOperands ((text ++ rest).length + 1) (text ++ rest)).map fun os => .command m os := by
  have start := h.skipSpaces_append rest
  obtain ⟨⟨c, cs, rfl, hc⟩, -⟩ := h
  have operands : skipSpaces (' ' :: (c :: cs ++ rest)) = c :: cs ++ rest := start
  simp only [parseLine, skipSpaces_mnemonicText, takeWord_mnemonicText_space, find_mnemonicText, operands]
  rfl

/-- The command of a line's text, once the line is parsed and its operands stand for the command's. -/
theorem assembleText_of_parseLine {text : List Char} {i : Instr} {operands : List AsmOperand}
    (parses : parseLine text = some (.command (mnemonicOf i) operands))
    (values : HaveValues operands (operandNumbers i)) : assembleText text = some i := by
  simp only [assembleText, parses, Option.bind_some, assemble_of_haveValues values]

section
variable {i : Instr} {n k : Nat}

theorem assembleText_noOperand (operands : operandNumbers i = []) :
    assembleText (mnemonicText (mnemonicOf i)) = some i :=
  assembleText_of_parseLine (parseLine_mnemonicText _) (operands ▸ .nil)

theorem assembleText_oneOperand {text : List Char} {o : AsmOperand} (spells : SpellsOperand text o)
    (operands : operandNumbers i = [n]) (value : o.value = some n) :
    assembleText (mnemonicText (mnemonicOf i) ++ ' ' :: text) = some i := by
  refine assembleText_of_parseLine (operands := [o]) ?_ (operands ▸ .cons value .nil)
  have line := parseLine_operands (mnemonicOf i) spells []
  rw [List.append_nil] at line
  rw [line, parseOperands_last spells, Option.map_some]

theorem assembleText_twoOperands {text text' : List Char} {o o' : AsmOperand} (spells : SpellsOperand text o)
    (spells' : SpellsOperand text' o') (operands : operandNumbers i = [n, k]) (value : o.value = some n)
    (value' : o'.value = some k) :
    assembleText (mnemonicText (mnemonicOf i) ++ ' ' :: (text ++ ',' :: ' ' :: text')) = some i := by
  refine assembleText_of_parseLine (operands := [o, o']) ?_ (operands ▸ .cons value (.cons value' .nil))
  have fuel : (text ++ ',' :: ' ' :: text').length = (text.length + text'.length + 1) + 1 := by
    simp only [List.length_append, List.length_cons]; omega
  rw [parseLine_operands _ spells, parseOperands_comma spells, fuel, parseOperands_skipSpace,
    parseOperands_last spells', Option.map_some, Option.map_some]

end

theorem assembleText_commandText (i : Instr) : assembleText (commandText i) = some i := by
  have byte := byteText_spellsOperand
  have nibble := nibbleText_spellsOperand
  cases i with
  | init => exact assembleText_noOperand (i := .init) rfl
  | absorb b0 b1 =>
    simpa [commandText, mnemonicOf] using
      assembleText_twoOperands (i := .absorb b0 b1) (byte b0) (byte b1) rfl rfl rfl
  | pad0 => exact assembleText_noOperand (i := .pad0) rfl
  | pad1 b => exact assembleText_oneOperand (i := .pad1 b) (byte b) rfl rfl
  | squeeze => exact assembleText_noOperand (i := .squeeze) rfl
  | permute => exact assembleText_noOperand (i := .permute) rfl
  | gfmul a b =>
    simpa [commandText, mnemonicOf] using
      assembleText_twoOperands (i := .gfmul a b) (nibble a) (nibble b) rfl rfl rfl
  | rdstate k => exact assembleText_oneOperand (i := .rdstate k) (byte k) rfl rfl
  | wrstate k v =>
    simpa [commandText, mnemonicOf] using
      assembleText_twoOperands (i := .wrstate k v) (byte k) (byte v) rfl rfl rfl
  | rdstatus => exact assembleText_noOperand (i := .rdstatus) rfl

/-- Settles O8: every operand's text spells it, in hex, in decimal and quoted, so the line parses to the command's own
mnemonic and operands. -/
theorem commandTextAssemblesBack : Obligations.CommandTextAssemblesBack := by
  refine ⟨assembleText_commandText, fun b => ?_, fun n => ?_⟩
  · exact assembleText_oneOperand (i := .pad1 b) (decimal_spellsOperand b.toNat) rfl rfl
  · have code : (Char.ofNat n.val).toNat = n.val := by revert n; decide
    have operands : operandNumbers (.pad1 (BitVec.ofNat 8 n.val)) = [n.val] := by
      simp only [operandNumbers, BitVec.toNat_ofNat, Nat.mod_eq_of_lt (show n.val < 2 ^ 8 by omega)]
    exact assembleText_oneOperand (i := .pad1 (BitVec.ofNat 8 n.val)) (quoted_spellsOperand _) operands
      (operandValue_eq_some_iff.mpr (.inr ⟨_, rfl, code, n.isLt⟩))

end Sys2Proof.Machine
end

section
/-! SUPPORT. The multiplier's laws (R100, R103), the document's double-and-add procedure (R102), and the table designs
(R241). -/

namespace Sys2Proof.Machine

/-! ### Doubling -/

/-- Bit 3 of a nibble says whether doubling overflows (R100). -/
theorem nibble_bit_three (v : Nibble) : v.getLsbD 3 = decide (8 ≤ v.toNat) :=
  (BitVec.msb_eq_getLsbD_last v).symm.trans (BitVec.msb_eq_decide v)

theorem xtime_of_lt_eight {v : Nibble} (h : v.toNat < 8) (red : Nibble) : xtime red v = v <<< 1 := by
  rw [xtime, nibble_bit_three, decide_eq_false (Nat.not_le.mpr h)]
  exact BitVec.xor_zero

theorem xtime_of_eight_le {v : Nibble} (h : 8 ≤ v.toNat) (red : Nibble) : xtime red v = v <<< 1 ^^^ red := by
  rw [xtime, nibble_bit_three, decide_eq_true h, if_pos rfl]

theorem shiftLeft_one_of_eight_le {v : Nibble} (h : 8 ≤ v.toNat) : v <<< 1 = BitVec.ofNat 4 (2 * v.toNat - 16) := by
  have := v.isLt
  apply BitVec.eq_of_toNat_eq
  rw [BitVec.toNat_shiftLeft, BitVec.toNat_ofNat, Nat.shiftLeft_eq]
  omega

/-- Settles O50, by whether the shift overflows. -/
theorem xtimeDoublesAndFolds : Obligations.XtimeDoublesAndFolds := by
  refine ⟨fun red v => ⟨fun below => ?_, fun above => ?_⟩, by decide, by decide⟩
  · rw [xtime_of_lt_eight below, BitVec.toNat_shiftLeft, Nat.shiftLeft_eq]
    omega
  · rw [xtime_of_eight_le above, shiftLeft_one_of_eight_le above]

/-! ### The ring laws -/

@[simp] theorem xtime_zero (red : Nibble) : xtime red 0#4 = 0#4 := by simp [xtime]

theorem gfmul_one (red a : Nibble) : gfmul red a 1 = a := by simp [gfmul_eq_xor]

theorem gfmul_two (red a : Nibble) : gfmul red a 2 = xtime red a := by simp [gfmul_eq_xor]

/-- Doubling an operand doubles the product. -/
theorem gfmul_xtime_left (red a b : Nibble) : gfmul red (xtime red a) b = xtime red (gfmul red a b) := by
  simp only [gfmul_eq_xor, xtime_xor, apply_ite (xtime red), BitVec.ofNat_eq_ofNat, xtime_zero]

theorem gfmul_xtime_right (red a b : Nibble) : gfmul red a (xtime red b) = xtime red (gfmul red a b) := by
  rw [gfmul_comm, gfmul_xtime_left, gfmul_comm]

/-- Multiplying by a goes into each doubling of b that the product b c adds up. -/
theorem gfmul_assoc (red a b c : Nibble) : gfmul red (gfmul red a b) c = gfmul red a (gfmul red b c) := by
  rw [gfmul_eq_xor red (gfmul red a b) c, gfmul_eq_xor red b c]
  simp only [gfmul_xor_right, apply_ite (gfmul red a), gfmul_xtime_right, gfmul_zero]

/-! ### The field of the candidate RED -/

theorem exists_gfmul_three_eq_one : ∀ a : Nibble, a ≠ 0 → ∃ b, gfmul 0x3 a b = 1 := by decide

/-- x^15 = 1 and no lower power is, so x^n depends on n modulo 15 alone. -/
theorem xtime_three_iterate_eq_one_iff (n : Nat) : (xtime 0x3)^[n] 1 = 1 ↔ 15 ∣ n := by
  have period : Function.IsPeriodicPt (xtime 0x3) 15 1 := by unfold Function.IsPeriodicPt Function.IsFixedPt; decide
  have below : ∀ r < 15, (xtime 0x3)^[r] 1 = 1 ↔ r = 0 := by decide
  rw [← period.iterate_mod_apply n, below _ (Nat.mod_lt n (by decide)), Nat.dvd_iff_mod_eq_zero]

/-- Settles O52: the laws follow from linearity and from doubling an operand; the candidate's field is finite, and x has
period 15 in it. -/
theorem gfmulIsARingProduct : Obligations.GfmulIsARingProduct :=
  ⟨fun red a b c => ⟨gfmul_comm red a b, gfmul_xor_right red a b c, gfmul_zero red a, gfmul_one red a, gfmul_two red a,
    gfmul_assoc red a b c⟩, exists_gfmul_three_eq_one, fun n _ => xtime_three_iterate_eq_one_iff n⟩

/-! ### The document's procedure -/

/-- One turn of double-and-add: bit 0 of b adds a, and the other bits multiply the doubled a (R102). -/
theorem gfmul_eq_xor_shiftRight (red a b : Nibble) :
    gfmul red a b = (if b.getLsbD 0 then a else 0) ^^^ gfmul red (xtime red a) (b >>> 1) := by
  simp [gfmul_eq_xor, BitVec.xor_assoc]

/-- The loop's invariant: acc XOR the product of run and b stays the same, and is what the loop returns once b is 1.
The fuel is enough for as long as b is below 2^(fuel + 1). -/
theorem mulDocLoop_eq (red : Nibble) (fuel : Nat) (run acc b : Nibble) (pos : 0 < b.toNat)
    (enough : b.toNat < 2 ^ (fuel + 1)) : mulDocLoop red fuel run acc b = acc ^^^ gfmul red run b := by
  have last (run acc b : Nibble) (pos : 0 < b.toNat) (le_one : b.toNat ≤ 1) :
      acc ^^^ run = acc ^^^ gfmul red run b := by
    have one : b = 1 := BitVec.eq_of_toNat_eq (Nat.le_antisymm le_one pos)
    rw [one, gfmul_one]
  induction fuel generalizing run acc b with
  | zero => exact last run acc b pos (by omega)
  | succ fuel ih =>
    rw [mulDocLoop]
    split
    next more =>
      have half : (b >>> 1).toNat = b.toNat / 2 := by simp [Nat.shiftRight_eq_div_pow]
      rw [ih _ _ _ (by omega) (by omega), gfmul_eq_xor_shiftRight red run b]
      cases b.getLsbD 0 <;> simp [BitVec.xor_assoc]
    next done => exact last run acc b pos (by omega)

theorem mulDoc_of_right_le {a b : Nibble} (hab : b.toNat ≤ a.toNat) (red : Nibble) :
    mulDoc red a b = gfmul red a b := by
  rcases Nat.lt_or_ge 1 b.toNat with more | le_one
  · have notZero : b ≠ 0 := by rintro rfl; exact absurd more (by decide)
    have notOne : b ≠ 1 := by rintro rfl; exact absurd more (by decide)
    simp only [mulDoc, if_neg (Nat.not_lt.mpr hab), if_neg notZero, if_neg notOne]
    rw [mulDocLoop_eq red 4 a 0 b (by omega) (by omega)]
    exact BitVec.zero_xor
  · exact mulDoc_of_right_le_one hab le_one red

/-- Settles O53: the procedure puts the larger operand first, and from there its loop keeps the product. -/
theorem documentProcedureComputesTheProduct : Obligations.DocumentProcedureComputesTheProduct := by
  intro red a b
  rcases Nat.lt_or_ge a.toNat b.toNat with hab | hab
  · rw [mulDoc_swap hab, mulDoc_of_right_le hab.le, gfmul_comm]
  · exact mulDoc_of_right_le hab red

/-! ### The table designs -/

theorem lazyMultiply_eq {red : Nibble} {t : Cache} (h : cacheVerified red t) (fillShort : Bool) (a b : Nibble) :
    ∃ u, lazyMultiply red fillShort t a b = (gfmul red a b, u) ∧ cacheVerified red u := by
  obtain ⟨product, verified, -⟩ := lazyCacheIsUnobservable.1 red fillShort t a b h
  exact ⟨_, Prod.ext product rfl, verified⟩

/-- Settles O56: the eager table holds the product, and both caches multiply lazily. -/
theorem safeTableDesignsGiveTheProduct : Obligations.SafeTableDesignsGiveTheProduct := by
  intro red fillShort t a b verified
  obtain ⟨u, lazy, verified'⟩ := lazyMultiply_eq verified fillShort a b
  refine ⟨fun d safe => ?_, rfl⟩
  cases d with
  | eager => exact ⟨t, by rw [multiplyVia, lookup_multTable], verified⟩
  | ownCache => exact ⟨u, congrArg Host.Outcome.next lazy, verified'⟩
  | lockedCache => exact ⟨u, congrArg Host.Outcome.next lazy, verified'⟩
  | unsynchronisedCache => exact absurd rfl safe

end Sys2Proof.Machine
end

section
/-! SUPPORT. The layers of the permutation by cells (spec 41_permutation.md): AddConstants (R120), SubCells (R121, R240)
and ShiftRows (R122, R128, R238). -/

namespace Sys2Proof.Machine

/-- A fold whose turn i rewrites part i alone, from that part's old value, rewrites each part it visits once. -/
theorem foldl_rewrites_parts {σ ι α : Type} [DecidableEq ι] {f : σ → ι → σ} {part : σ → ι → α} {g : ι → α → α}
    (turn : ∀ S i r, part (f S i) r = if r = i then g r (part S r) else part S r) {is : List ι} (distinct : is.Nodup)
    (S : σ) (r : ι) : part (is.foldl f S) r = if r ∈ is then g r (part S r) else part S r := by
  induction is generalizing S with
  | nil => simp
  | cons i is ih =>
    obtain ⟨fresh, distinct⟩ := List.nodup_cons.mp distinct
    rw [List.foldl_cons, ih distinct, turn]
    by_cases hi : r = i
    · subst hi
      simp [fresh]
    · simp [hi]

/-! ### AddConstants -/

theorem rowByte_zero_eq_cellByte (i : Fin 6) : rowByte i 0 = cellByte i 0 := by
  ext
  simp only [rowByte, cellByte, Fin.val_zero]
  omega

/-- XOR into the high nibble of a row's first byte is XOR into the row's cell 0 (R120). -/
theorem xorByte_rowByte_zero (S : Grid) (i : Fin 6) (v : Nibble) :
    xorByte S (rowByte i 0) (pack v 0) = setCell S i 0 (cell S i 0 ^^^ v) := by
  have nibbles : ∀ b : Byte, b ^^^ pack v 0#4 = pack (hi b ^^^ v) (lo b) := fun b =>
    byte_eq_of_nibbles (by simp) (by simp)
  simp [rowByte_zero_eq_cellByte, xorByte, setCell, cell, nibbles]

theorem cell_addConstants (p : Params) (S : Grid) (r : Fin 12) (i j : Fin 6) :
    cell (addConstants p S r) i j = if j = 0 then cell S i j ^^^ (p.rc.get r ^^^ p.ic.get i) else cell S i j := by
  have rows := foldl_rewrites_parts (part := cell)
    (g := fun i row j => if j = 0 then row j ^^^ (p.rc.get r ^^^ p.ic.get i) else row j)
    (f := fun S i => xorByte S (rowByte i 0) (pack (p.rc.get r ^^^ p.ic.get i) 0)) (fun S i r => ?_) six_nodup S i
  · rw [addConstants, rows, if_pos (mem_six i)]
  · ext1 j
    rw [xorByte_rowByte_zero, cell_setCell]
    by_cases hr : r = i <;> by_cases hj : j = 0 <;> simp [hr, hj]

/-- Settles O44: every row's turn is an XOR into its cell 0, and the example is evaluated. -/
theorem addConstantsChangesColumnZero : Obligations.AddConstantsChangesColumnZero :=
  ⟨cell_addConstants, by decide⟩

/-- Adding the same constants again takes them back. -/
theorem addConstants_involutive (p : Params) (r : Fin 12) : Function.Involutive fun S => addConstants p S r := by
  intro S
  refine grid_eq_of_cells fun i j => ?_
  by_cases hj : j = 0 <;> simp [cell_addConstants, hj]

/-! ### SubCells -/

theorem cell_subCells (p : Params) (S : Grid) (i j : Fin 6) : cell (subCells p S) i j = p.sbox (cell S i j) := by
  by_cases even : j.val % 2 = 0 <;> simp [cell, subCells, getByte_ofFn, subByte, even]

/-- The inverse is SubCells through the inverse SBOX. -/
theorem subCells_bijective (p : Params) : Function.Bijective (subCells p) := by
  refine Function.bijective_iff_has_inverse.mpr
    ⟨subCells { p with sbox := p.sbox.symm }, fun S => ?_, fun S => ?_⟩ <;>
  exact grid_eq_of_cells fun i j => by simp [cell_subCells]

/-- Settles O45: each nibble goes through SBOX, which is a bijection, and the example is evaluated. -/
theorem subCellsReplacesEveryCell : Obligations.SubCellsReplacesEveryCell :=
  ⟨cell_subCells, subCells_bijective, by decide⟩

/-! ### ShiftRows -/

theorem rowByte_inj {r r' : Fin 6} {j j' : Fin 3} : rowByte r j = rowByte r' j' ↔ r = r' ∧ j = j' := by
  simp only [rowByte, Fin.ext_iff]
  omega

theorem rowWord_setRow (S : Grid) (i r : Fin 6) (w : BitVec 24) :
    rowWord (setRow S i w) r = if r = i then w else rowWord S r := by
  have whole : w.extractLsb' 16 8 ++ w.extractLsb' 8 8 ++ w.extractLsb' 0 8 = w := by
    rw [BitVec.extractLsb'_append_extractLsb'_eq_extractLsb' (show 16 = 8 + 8 from rfl),
      BitVec.extractLsb'_append_extractLsb'_eq_extractLsb' (show 8 = 0 + 8 from rfl), BitVec.extractLsb'_eq_self]
  by_cases hr : r = i
  · simp [rowWord, setRow, getByte_setByte, rowByte_inj, hr, whole]
  · simp [rowWord, setRow, getByte_setByte, rowByte_inj, hr]

/-- For a rotation by less than a whole word the spec's rotl24 (R8) is the library's. -/
theorem rotl24_eq_rotateLeft (w : BitVec 24) {k : Nat} (hk : k < 24) : rotl24 w k = w.rotateLeft k := by
  rw [BitVec.rotateLeft_def, Nat.mod_eq_of_lt hk, rotl24]
  split
  next zero => simp [zero, BitVec.ushiftRight_eq_zero]
  next => rfl

theorem rowWord_shiftRows (S : Grid) (i : Fin 6) :
    rowWord (shiftRows S) i = (rowWord S i).rotateLeft (4 * i.val) := by
  rw [shiftRows, foldl_rewrites_parts (part := rowWord) (g := fun i w => rotl24 w (4 * i.val))
    (fun S i r => ?_) six_nodup, if_pos (mem_six i), rotl24_eq_rotateLeft _ (by omega)]
  rw [rowWord_setRow]
  by_cases hr : r = i <;> simp [hr]

/-- Byte j of a row is the row word's byte j, counted from the top (R24). -/
theorem extractLsb'_rowWord (S : Grid) (i : Fin 6) (j : Fin 3) :
    (rowWord S i).extractLsb' (16 - 8 * j.val) 8 = getByte S (rowByte i j) := by
  match j with
  | 0 => exact BitVec.extractLsb'_append_eq_of_le (by simp) |>.trans BitVec.extractLsb'_append_eq_left
  | 1 => exact BitVec.extractLsb'_append_eq_of_le (by simp) |>.trans BitVec.extractLsb'_append_eq_right
  | 2 => exact BitVec.extractLsb'_append_eq_right

/-- Bits of a byte of a word are bits of the word. -/
theorem extractLsb'_extractLsb' {n start len start' len' : Nat} (w : BitVec n) (within : start + len ≤ len') :
    (w.extractLsb' start' len').extractLsb' start len = w.extractLsb' (start' + start) len := by
  apply BitVec.eq_of_getLsbD_eq
  intro b hb
  simp only [BitVec.getLsbD_extractLsb', show start + b < len' by omega, decide_true, Bool.true_and, Nat.add_assoc]

/-- Cell j of a row is the row word's nibble j, counted from the top (R22, R24). -/
theorem cell_eq_extractLsb'_rowWord (S : Grid) (i j : Fin 6) :
    cell S i j = (rowWord S i).extractLsb' (20 - 4 * j.val) 4 := by
  have place : cellByte i j = rowByte i ⟨j.val / 2, by omega⟩ := by
    ext
    simp only [cellByte, rowByte]
    omega
  rw [cell, place, ← extractLsb'_rowWord]
  split
  next even =>
    rw [hi, extractLsb'_extractLsb' _ (by omega)]
    congr 1
    simp only
    omega
  next odd =>
    rw [lo, extractLsb'_extractLsb' _ (by omega)]
    congr 1
    simp only
    omega

/-- New cell (i, j) is old cell (i, (j + i) mod 6). -/
theorem cell_shiftRows (S : Grid) (i j : Fin 6) : cell (shiftRows S) i j = cell S i (j + i) := by
  have index : (j + i).val = (j.val + i.val) % 6 := Fin.val_add j i
  rw [cell_eq_extractLsb'_rowWord, cell_eq_extractLsb'_rowWord, rowWord_shiftRows, index]
  apply BitVec.eq_of_getLsbD_eq
  intro b hb
  simp only [BitVec.getLsbD_extractLsb', BitVec.getLsbD_rotateLeft_of_le (show 4 * i.val < 24 by omega)]
  by_cases wraps : 20 - 4 * j.val + b < 4 * i.val
  · have source : 24 - 4 * i.val + (20 - 4 * j.val + b) = 20 - 4 * ((j.val + i.val) % 6) + b := by omega
    simp [wraps, source]
  · have source : 20 - 4 * j.val + b - 4 * i.val = 20 - 4 * ((j.val + i.val) % 6) + b := by omega
    have inside : 20 - 4 * j.val + b < 24 := by omega
    simp [wraps, source, inside]

/-- Settles O46: the rows are rotated as words, the cells are the words' nibbles, and row 0 is rotated by 0. -/
theorem shiftRowsRotatesRowsByCells : Obligations.ShiftRowsRotatesRowsByCells := by
  refine ⟨fun S i j j' h => ?_, rowWord_shiftRows, fun S k hk => ?_, by decide⟩
  · rw [cell_shiftRows, Fin.ext (h.trans (Fin.val_add j i).symm)]
  · have row : (⟨k.val / 3, by omega⟩ : Fin 6) = 0 := Fin.ext (Nat.div_eq_of_lt hk)
    rw [getByte_eq_cells, getByte_eq_cells S, row, cell_shiftRows, cell_shiftRows, add_zero, add_zero]

end Sys2Proof.Machine
end

section
/-! SUPPORT. When the permutation is a bijection (R127): the nibbles form a commutative ring (R103), MixColumnsSerial
multiplies every column by MIX over it, and the other layers are bijections. -/

namespace Sys2Proof.Machine

/-! ### The ring of the nibbles -/

/-- R is the nibbles with XOR for its sum and the product of RED for its product (R101). -/
structure NibbleRing (red : Nibble) (R : Type) [CommRing R] where
  equiv : Nibble ≃ R
  map_xor : ∀ a b, equiv (a ^^^ b) = equiv a + equiv b
  map_gfmul : ∀ a b, equiv (gfmul red a b) = equiv a * equiv b

/-- The laws of R103 are those of a commutative ring. -/
@[reducible] def nibbleCommRing (red : Nibble) : CommRing Nibble :=
  @CommRing.ofMinimalAxioms Nibble ⟨(· ^^^ ·)⟩ ⟨gfmul red⟩ ⟨id⟩ ⟨0⟩ ⟨1⟩ BitVec.xor_assoc (fun _ => BitVec.zero_xor)
    (fun _ => BitVec.xor_self) (gfmul_assoc red) (gfmul_comm red) (fun a => (gfmul_comm red 1 a).trans (gfmul_one red a))
    (gfmul_xor_right red)

theorem exists_nibbleRing (red : Nibble) : ∃ (R : Type) (_ : CommRing R), Nonempty (NibbleRing red R) :=
  ⟨Nibble, nibbleCommRing red,
    ⟨@NibbleRing.mk red Nibble (nibbleCommRing red) (Equiv.refl Nibble) (fun _ _ => rfl) fun _ _ => rfl⟩⟩

/-! ### Columns and matrices over it -/

namespace NibbleRing

variable {red : Nibble} {R : Type} [CommRing R] (φ : NibbleRing red R)

theorem map_zero : φ.equiv 0 = 0 :=
  left_eq_add.mp (φ.map_xor 0 0)

theorem map_one : φ.equiv 1 = 1 := by
  have product := φ.map_gfmul (φ.equiv.symm 1) 1
  rw [gfmul_one] at product
  simpa using product.symm

/-- The XOR over all six indexes is the sum over them. -/
theorem map_xorSum (f : Fin 6 → Nibble) :
    φ.equiv (six.foldl (fun acc k => acc ^^^ f k) 0) = ∑ k, φ.equiv (f k) := by
  simp only [six, List.foldl, Fin.sum_univ_six, φ.map_xor, φ.map_zero, zero_add]

/-- A column of six nibbles as a vector over the ring. -/
def vec (v : Vector Nibble 6) : Fin 6 → R := fun i => φ.equiv (v.get i)

/-- A table of nibbles as a matrix over the ring. -/
def mat (M : Vector (Vector Nibble 6) 6) : Matrix (Fin 6) (Fin 6) R := Matrix.of fun i j => φ.equiv ((M.get i).get j)

theorem vec_bijective : Function.Bijective φ.vec := by
  refine ⟨fun v w h => ?_, fun x => ⟨Vector.ofFn fun i => φ.equiv.symm (x i), ?_⟩⟩
  · exact Vector.ext fun i hi => φ.equiv.injective (congrFun h ⟨i, hi⟩)
  · ext i
    simp [vec, Vector.get_eq_getElem]

theorem mat_surjective : Function.Surjective φ.mat := by
  intro A
  refine ⟨Vector.ofFn fun i => Vector.ofFn fun j => φ.equiv.symm (A i j), ?_⟩
  ext i j
  simp [mat, Vector.get_eq_getElem]

theorem mat_mul (M N : Vector (Vector Nibble 6) 6) (i j : Fin 6) :
    (φ.mat M * φ.mat N) i j = φ.equiv (matrixProduct red M N i j) := by
  simp only [matrixProduct, map_xorSum, map_gfmul, Matrix.mul_apply, mat, Matrix.of_apply]

theorem inverseMatrices_iff (M N : Vector (Vector Nibble 6) 6) :
    inverseMatrices red M N ↔ φ.mat M * φ.mat N = 1 ∧ φ.mat N * φ.mat M = 1 := by
  have identity : ∀ i j : Fin 6, φ.equiv (if i = j then 1 else 0) = (1 : Matrix (Fin 6) (Fin 6) R) i j := by
    intro i j
    rw [Matrix.one_apply, apply_ite φ.equiv, map_one, map_zero]
  simp only [inverseMatrices, ← Matrix.ext_iff, mat_mul, ← identity, φ.equiv.injective.eq_iff, forall_and]

/-- A table has an inverse exactly when its matrix is a unit. -/
theorem exists_inverseMatrices_iff (M : Vector (Vector Nibble 6) 6) :
    (∃ N, inverseMatrices red M N) ↔ IsUnit (φ.mat M) := by
  simp only [isUnit_iff_exists, φ.mat_surjective.exists, φ.inverseMatrices_iff]

end NibbleRing

/-- MIX applied to a column is its matrix times the column (R123). -/
theorem vec_mixColumn {R : Type} [CommRing R] {p : Params} (φ : NibbleRing p.red R) (v : Vector Nibble 6) :
    φ.vec (mixColumn p v) = (φ.mat p.mix).mulVec (φ.vec v) := by
  ext i
  simp only [NibbleRing.vec, mixColumn_get, φ.map_xorSum, φ.map_gfmul, Matrix.mulVec, dotProduct, NibbleRing.mat,
    Matrix.of_apply]

/-- MIX is invertible exactly when every column is MIX of some column. -/
theorem exists_inverseMatrices_iff_mixColumn_surjective (p : Params) :
    (∃ N, inverseMatrices p.red p.mix N) ↔ Function.Surjective (mixColumn p) := by
  obtain ⟨R, _, ⟨φ⟩⟩ := exists_nibbleRing p.red
  have conjugate : φ.vec ∘ mixColumn p = (φ.mat p.mix).mulVec ∘ φ.vec := funext (vec_mixColumn φ)
  rw [φ.exists_inverseMatrices_iff, ← Matrix.mulVec_surjective_iff_isUnit,
    ← φ.vec_bijective.surjective.of_comp_iff (φ.mat p.mix).mulVec, ← conjugate, Function.Surjective.of_comp_iff']
  exact φ.vec_bijective

/-! ### The layers -/

theorem grid_finite : Finite Grid :=
  Finite.of_injective getByte fun _ _ h => grid_eq_of_bytes (congrFun h)

theorem column_finite : Finite (Vector Nibble 6) :=
  Finite.of_injective Vector.get fun _ _ h => Vector.ext fun i hi => congrFun h ⟨i, hi⟩

/-- Each row is rotated back. -/
theorem shiftRows_bijective : Function.Bijective shiftRows := by
  have := grid_finite
  refine Finite.injective_iff_bijective.mp fun S T h => grid_eq_of_cells fun i j => ?_
  have shifted (U : Grid) : cell U i j = cell (shiftRows U) i (j - i) := by rw [cell_shiftRows, sub_add_cancel]
  rw [shifted S, h, ← shifted T]

theorem column_mixColumnsSerial (p : Params) (S : Grid) (j : Fin 6) :
    column (mixColumnsSerial p S) j = mixColumn p (column S j) := by
  refine Vector.ext fun i hi => ?_
  exact (column_get _ ⟨i, hi⟩ j).trans (cell_mixColumnsSerial p S ⟨i, hi⟩ j)

theorem column_setColumn (S : Grid) (j : Fin 6) (v : Vector Nibble 6) : column (setColumn S j v) j = v := by
  refine Vector.ext fun i hi => ?_
  exact (column_get _ ⟨i, hi⟩ j).trans (by simp [cell_setColumn, Vector.get_eq_getElem])

/-- MixColumnsSerial mixes each column for itself. -/
theorem mixColumnsSerial_bijective_iff (p : Params) :
    Function.Bijective (mixColumnsSerial p) ↔ Function.Surjective (mixColumn p) := by
  constructor
  · intro h v
    obtain ⟨S, hS⟩ := h.surjective (setColumn iv 0 v)
    exact ⟨column S 0, by rw [← column_mixColumnsSerial, hS, column_setColumn]⟩
  · intro h
    have := grid_finite
    have := column_finite
    refine Finite.injective_iff_bijective.mp fun S T same => grid_eq_of_cells fun i j => ?_
    have columns : column S j = column T j := Finite.injective_iff_surjective.mpr h <| by
      rw [← column_mixColumnsSerial, same, column_mixColumnsSerial]
    rw [← column_get, columns, column_get]

theorem mixColumnsSerial_bijective_iff_exists_inverse (p : Params) :
    Function.Bijective (mixColumnsSerial p) ↔ ∃ N, inverseMatrices p.red p.mix N :=
  (mixColumnsSerial_bijective_iff p).trans (exists_inverseMatrices_iff_mixColumn_surjective p).symm

/-! ### The permutation -/

theorem photonRound_bijective {p : Params} (mix : Function.Bijective (mixColumnsSerial p)) (r : Fin 12) :
    Function.Bijective fun S => photonRound p S r := by
  have layers : (fun S => photonRound p S r) =
      mixColumnsSerial p ∘ shiftRows ∘ subCells p ∘ fun S => addConstants p S r := by
    simp only [Function.comp_def, photonRound]
  rw [layers]
  exact mix.comp (shiftRows_bijective.comp ((subCells_bijective p).comp (addConstants_involutive p r).bijective))

/-- A fold of bijections is a bijection. -/
theorem foldl_bijective {σ ι : Type} {f : σ → ι → σ} (h : ∀ i, Function.Bijective fun S => f S i) (is : List ι) :
    Function.Bijective fun S => is.foldl f S := by
  induction is with
  | nil => exact Function.bijective_id
  | cons i is ih => exact ih.comp (h i)

/-- The inverse of the candidate MIX over GF(16) with RED = 0x3, the one that the tests multiply too. -/
def candidateInverse : Vector (Vector Nibble 6) 6 :=
  #v[#v[0x8, 0x2, 0x3, 0x3, 0x2, 0x8], #v[0x8, 0xB, 0xE, 0xD, 0xF, 0x1], #v[0x1, 0xA, 0x3, 0xB, 0x5, 0xD],
    #v[0xD, 0x8, 0x8, 0xF, 0x9, 0xC], #v[0xC, 0x6, 0x2, 0x1, 0x5, 0x2], #v[0x2, 0x8, 0x5, 0x8, 0x2, 0x1]]

theorem inverseMatrices_candidate : inverseMatrices candidate.red candidate.mix candidateInverse := by
  unfold inverseMatrices
  decide

/-- Settles O49: P is a fold of rounds, and a round is composed of the four layers; the candidate's inverse is multiplied
out. -/
theorem permutationIsBijectiveWhenMixIsInvertible : Obligations.PermutationIsBijectiveWhenMixIsInvertible := by
  refine ⟨fun p r => (addConstants_involutive p r).bijective, shiftRows_bijective, subCells_bijective,
    mixColumnsSerial_bijective_iff_exists_inverse, fun p N inverse => ?_,
    candidateInverse, inverseMatrices_candidate⟩
  have mix := (mixColumnsSerial_bijective_iff_exists_inverse p).mpr ⟨N, inverse⟩
  exact foldl_bijective (photonRound_bijective mix) roundIndexes

end Sys2Proof.Machine
end

section
/-! SUPPORT. PERMUTE (R129), and runs of commands that complete: any S is written, permuted and read back (R183). -/

namespace Sys2Proof.Machine

/-- Settles O33: PERMUTE completes in every E, and its word is that of its row. -/
theorem permuteAppliesPOnce : Obligations.PermuteAppliesPOnce := by
  constructor
  · intro s
    refine ⟨_, exec_of_completes .permute, rfl, rfl, rfl, rfl, rfl, ?_⟩
    simp [okResponse_eq_okWord]
  · exact encodedAs_opcodeRow (r := ⟨.permute, 0x00000005, 0xFFFFFFFF⟩) (by decide)

/-! ### Runs of commands that complete -/

/-- The commands complete one after the other: from E they leave F, with these answers. -/
inductive CompletesAll : Engine → List Instr → Engine → List Word → Prop
  | nil (E : Engine) : CompletesAll E [] E []
  | cons {E F G : Engine} {i : Instr} {is : List Instr} {r0 r1 : Byte} {answers : List Word}
      (first : Completes E i F r0 r1) (later : CompletesAll F is G answers) :
      CompletesAll E (i :: is) G (okWord r0 r1 :: answers)

theorem CompletesAll.append {E F G : Engine} {is js : List Instr} {answers answers' : List Word}
    (h : CompletesAll E is F answers) (h' : CompletesAll F js G answers') :
    CompletesAll E (is ++ js) G (answers ++ answers') := by
  induction h with
  | nil => exact h'
  | cons first _ ih => exact .cons first (ih h')

/-- A run of pending commands that complete takes them off, leaves their E and returns their answers. -/
theorem run_of_completesAll {s : State} {is : List Instr} {rest : List HostEvent} {G : Engine} {answers : List Word}
    (pending : s.pending = is.map (fun i => .command (encode i)) ++ rest)
    (completes : CompletesAll s.engine is G answers) :
    run is.length s = .next { engine := G, pending := rest, responses := s.responses ++ answers } := by
  generalize start : s.engine = E at completes
  induction completes generalizing s with
  | nil E => exact congrArg Host.Outcome.next (state_eq_of_fields start pending (List.append_nil _).symm)
  | cons first later ih =>
    subst start
    have taken : step s = complete _ _ _ _ :=
      (stepRunsTheDecodedCommand s _ _ _ pending (decodeOfEncodeIsTheCommand _)).trans (exec_of_completes first)
    rw [List.length_cons, run_succ_of_step taken, ih rfl rfl]
    simp [okResponse_eq_okWord]

/-! ### Writing and reading state bytes by index -/

theorem toNat_ofNat_index (k : Fin 18) : (BitVec.ofNat 8 k.val).toNat = k.val := by
  rw [BitVec.toNat_ofNat, Nat.mod_eq_of_lt (by omega)]

theorem Completes.wrstateIndex (E : Engine) (k : Fin 18) (v : Byte) :
    Completes E (.wrstate (BitVec.ofNat 8 k.val) v) { E with S := setByte E.S k v } 0x00 0x00 := by
  have mapped : (BitVec.ofNat 8 k.val).toNat < 18 := (toNat_ofNat_index k).trans_lt k.isLt
  have index : (⟨_, mapped⟩ : Fin 18) = k := Fin.ext (toNat_ofNat_index k)
  simpa only [index] using Completes.wrstate (E := E) (BitVec.ofNat 8 k.val) v mapped

theorem Completes.rdstateIndex (E : Engine) (k : Fin 18) :
    Completes E (.rdstate (BitVec.ofNat 8 k.val)) E (getByte E.S k) 0x00 := by
  have mapped : (BitVec.ofNat 8 k.val).toNat < 18 := (toNat_ofNat_index k).trans_lt k.isLt
  have index : (⟨_, mapped⟩ : Fin 18) = k := Fin.ext (toNat_ofNat_index k)
  simpa only [index] using Completes.rdstate (E := E) (BitVec.ofNat 8 k.val) mapped

/-- WRSTATEs at these indexes, each with the byte of X there. -/
theorem completesAll_writes (X : Grid) (ks : List (Fin 18)) (E : Engine) :
    CompletesAll E (ks.map fun k => .wrstate (BitVec.ofNat 8 k.val) (getByte X k))
      { E with S := ks.foldl (fun S k => setByte S k (getByte X k)) E.S }
      (List.replicate ks.length (okWord 0x00 0x00)) := by
  induction ks generalizing E with
  | nil => exact .nil E
  | cons k ks ih => exact .cons (.wrstateIndex E k _) (ih _)

/-- RDSTATEs at these indexes answer the bytes there. -/
theorem completesAll_reads (ks : List (Fin 18)) (E : Engine) :
    CompletesAll E (ks.map fun k => .rdstate (BitVec.ofNat 8 k.val)) E
      (ks.map fun k => okWord (getByte E.S k) 0x00) := by
  induction ks with
  | nil => exact .nil E
  | cons k ks ih => exact .cons (.rdstateIndex E k) ih

/-- Writing every byte of X gives X. -/
theorem foldl_setByte_finRange (X S : Grid) :
    (List.finRange 18).foldl (fun S k => setByte S k (getByte X k)) S = X := by
  refine grid_eq_of_bytes fun k => ?_
  have bytes := foldl_rewrites_parts (part := getByte) (f := fun S k => setByte S k (getByte X k))
    (g := fun k _ => getByte X k) (fun S i r => ?_) (List.nodup_finRange 18) S k
  · rw [bytes, if_pos (List.mem_finRange k)]
  · rw [getByte_setByte]
    by_cases hr : r = i <;> simp [hr]

/-- Settles O39: the 37 commands complete one after the other, and the first 18 of them leave X. -/
theorem anyStateCanBeWrittenPermutedAndRead : Obligations.AnyStateCanBeWrittenPermutedAndRead := by
  unfold Obligations.AnyStateCanBeWrittenPermutedAndRead
  intro X rest s writes reads pending
  have written : CompletesAll s.engine writes { s.engine with S := X } (List.replicate 18 (okWord 0x00 0x00)) := by
    have h := completesAll_writes X (List.finRange 18) s.engine
    rwa [foldl_setByte_finRange, List.length_finRange] at h
  have permutedAndRead : CompletesAll { s.engine with S := X } (.permute :: reads) { s.engine with S := P X }
      (okWord 0x00 0x00 :: (List.finRange 18).map fun k => okWord (getByte (P X) k) 0x00) :=
    .cons .permute (completesAll_reads (List.finRange 18) _)
  have writesLength : writes.length = 18 := by simp [writes]
  have length : (writes ++ .permute :: reads).length = 37 := by simp [writes, reads]
  constructor
  · have h := run_of_completesAll (s := writeCommands (writes ++ .permute :: reads) s)
      (rest := (Instr.permute :: reads).map (fun i => .command (encode i)) ++ s.pending) (by simp) written
    rw [writesLength] at h
    exact ⟨_, h, rfl⟩
  · have h := run_of_completesAll (s := writeCommands (writes ++ .permute :: reads) s) (rest := rest) (by simp [pending])
      (written.append permutedAndRead)
    rw [length] at h
    refine ⟨_, h, rfl, rfl, rfl, rfl, rfl, ?_⟩
    simp [List.replicate_succ']

end Sys2Proof.Machine
end

section
/-! SUPPORT. The sponge commands' answers (R150 to R154): each completes in its phase as Completes says, fails outside
it, and has the words of its row. -/

namespace Sys2Proof.Machine

/-- The one phase in which a sponge command is legal, for the commands that check it (R202). -/
def spongePhase : Instr → Option Phase
  | .absorb _ _ => some .absorb
  | .pad0 => some .absorb
  | .pad1 _ => some .absorb
  | .squeeze => some .squeeze
  | _ => none

/-- Outside its phase a sponge command answers a next state in which it failed with SEQUENCE. -/
theorem exec_failedWith_of_phase_ne {i : Instr} {p : Phase} {s : State} (checked : spongePhase i = some p)
    (h : s.engine.phase ≠ p) : ∃ t, exec i s = .next t ∧ failedWith .sequence s t := by
  have fails : exec i s = raiseError .sequence s := by
    cases i <;> cases checked
    case absorb b0 b1 => simp only [exec, execAbsorb, whenPhase_out _ h]
    case pad0 => simp only [exec, execPad0, whenPhase_out _ h]
    case pad1 b => simp only [exec, execPad1, whenPhase_out _ h]
    case squeeze => simp only [exec, execSqueeze, whenPhase_out _ h]
  rw [fails]
  exact raiseError_failedWith .sequence s

theorem getByte_iv (k : Fin 18) :
    getByte iv k = if k.val < 15 then 0x00 else if k.val = 15 then 0x20 else 0x10 := by
  revert k; decide

/-- Settles O28: INIT completes in every E, and its word is that of its row. -/
theorem initStartsAHash : Obligations.InitStartsAHash := by
  constructor
  · intro s
    refine ⟨_, exec_of_completes .init, getByte_iv, rfl, rfl, rfl, rfl, ?_⟩
    simp [okResponse_eq_okWord]
  · exact encodedAs_opcodeRow (r := ⟨.init, 0x00000000, 0xFFFFFFFF⟩) (by decide)

/-- A block goes into bytes 0 and 1 before P, and into no other byte (R151, R153). -/
theorem exists_absorbPair_eq_P (S : Grid) (b0 b1 : Byte) : ∃ X, absorbPair S b0 b1 = P X ∧
    getByte X 0 = getByte S 0 ^^^ b0 ∧ getByte X 1 = getByte S 1 ^^^ b1 ∧
    ∀ k : Fin 18, 2 ≤ k.val → getByte X k = getByte S k := by
  refine ⟨_, rfl, by simp [getByte_xorByte], by simp [getByte_xorByte], fun k hk => ?_⟩
  have h0 : k ≠ 0 := by rintro rfl; simp at hk
  have h1 : k ≠ 1 := by rintro rfl; simp at hk
  simp [getByte_xorByte, h0, h1]

/-- Settles O29: in ABSORB the block is absorbed as exists_absorbPair_eq_P says, and elsewhere the phase check
fails. -/
theorem absorbXorsABlockAndPermutes : Obligations.AbsorbXorsABlockAndPermutes := by
  refine ⟨fun s b0 b1 => ⟨fun legal => ?_, fun illegal => exec_failedWith_of_phase_ne rfl illegal⟩,
    encodedAs_opcodeRow (r := ⟨.absorb, 0x00000001, 0xFF0000FF⟩) (by decide)⟩
  obtain ⟨X, permuted, byte0, byte1, others⟩ := exists_absorbPair_eq_P s.engine.S b0 b1
  refine ⟨_, X, exec_of_completes (.absorb b0 b1 legal), byte0, byte1, others, permuted, legal, rfl, rfl, rfl, ?_⟩
  simp [okResponse_eq_okWord]

/-- Settles O30: in ABSORB the padding byte goes into byte 0 alone, and elsewhere the phase check fails. -/
theorem pad0EndsAnEvenMessage : Obligations.Pad0EndsAnEvenMessage := by
  refine ⟨fun s => ⟨fun legal => ?_, fun illegal => exec_failedWith_of_phase_ne rfl illegal⟩,
    encodedAs_opcodeRow (r := ⟨.pad0, 0x00000002, 0xFFFFFFFF⟩) (by decide)⟩
  refine ⟨_, xorByte s.engine.S 0 padByte, exec_of_completes (.pad0 legal), ?_, fun k hk => ?_, rfl, rfl, rfl, rfl, rfl,
    ?_⟩
  · simp [getByte_xorByte, padByte]
  · have h0 : k ≠ 0 := by rintro rfl; simp at hk
    simp [getByte_xorByte, h0]
  · simp [okResponse_eq_okWord]

/-- Settles O31: in ABSORB the last byte and the padding byte are absorbed as a block, and elsewhere the phase check
fails. -/
theorem pad1EndsAnOddMessage : Obligations.Pad1EndsAnOddMessage := by
  refine ⟨fun s b => ⟨fun legal => ?_, fun illegal => exec_failedWith_of_phase_ne rfl illegal⟩,
    encodedAs_opcodeRow (r := ⟨.pad1, 0x00000003, 0xFFFF00FF⟩) (by decide)⟩
  obtain ⟨X, permuted, byte0, byte1, others⟩ := exists_absorbPair_eq_P s.engine.S b padByte
  refine ⟨_, X, exec_of_completes (.pad1 b legal), byte0, byte1, others, permuted, rfl, rfl, rfl, rfl, ?_⟩
  simp [okResponse_eq_okWord]

theorem squeezeState_eq_ite (E : Engine) : squeezeState E = if E.sqcnt = 0 then E.S else P E.S := by
  by_cases first : E.sqcnt = 0
  · rw [if_pos first, squeezeState_first first]
  · rw [if_neg first, squeezeState_later first]

/-- Settles O32: in SQUEEZE the pair is read from squeezeState, SQCNT + 1 is 8 exactly from 7, and elsewhere the phase
check fails. -/
theorem squeezeEmitsTheNextPair : Obligations.SqueezeEmitsTheNextPair := by
  refine ⟨fun s => ⟨fun legal => ?_, fun illegal => exec_failedWith_of_phase_ne rfl illegal⟩,
    encodedAs_opcodeRow (r := ⟨.squeeze, 0x00000004, 0xFFFFFFFF⟩) (by decide)⟩
  have eighth : s.engine.sqcnt + 1 = 8 ↔ s.engine.sqcnt = 7 := by constructor <;> intro h <;> bv_omega
  refine ⟨_, exec_of_completes (.squeeze legal), squeezeState_eq_ite s.engine, rfl, ?_, rfl, rfl, ?_⟩
  · simp only [respond_engine, eighth, legal]
  · simp [okResponse_eq_okWord]

end Sys2Proof.Machine
end

section
/-! SUPPORT. PHOTON128 by the document's six steps (R155), and HASH m computes it (R156, R157, R211). -/

namespace Sys2Proof.Machine

/-! ### The message, by the indexes of its blocks -/

/-- S after the whole blocks of m, the bytes m[2k] and m[2k + 1] for each k (R155, step 2). -/
def absorbBlocks (c : Params) (m : List Byte) (S : Grid) : Grid :=
  (List.range (m.length / 2)).foldl
    (fun S k => permutation c (xorByte (xorByte S 0 (m.getD (2 * k) 0)) 1 (m.getD (2 * k + 1) 0))) S

/-- S with the padded tail of m XORed in: the odd byte and 0x80, or 0x80 (R155, steps 3 and 4). -/
def padTail (m : List Byte) (S : Grid) : Grid :=
  if m.length % 2 = 1 then xorByte (xorByte S 0 (m.getD (m.length - 1) 0)) 1 0x80 else xorByte S 0 0x80

theorem absorbBlocks_cons_cons (c : Params) (m0 m1 : Byte) (rest : List Byte) (S : Grid) :
    absorbBlocks c (m0 :: m1 :: rest) S =
      absorbBlocks c rest (permutation c (xorByte (xorByte S 0 m0) 1 m1)) := by
  have half : (m0 :: m1 :: rest).length / 2 = rest.length / 2 + 1 := by simp only [List.length_cons]; omega
  rw [absorbBlocks, half, List.range_succ_eq_map, List.foldl_cons, List.foldl_map]
  rfl

theorem padTail_cons_cons (m0 m1 : Byte) (rest : List Byte) (S : Grid) :
    padTail (m0 :: m1 :: rest) S = padTail rest S := by
  have parity : (m0 :: m1 :: rest).length % 2 = rest.length % 2 := by simp only [List.length_cons]; omega
  by_cases odd : rest.length % 2 = 1
  · have last : (m0 :: m1 :: rest).length - 1 = rest.length - 1 + 2 := by simp only [List.length_cons]; omega
    rw [padTail, padTail, if_pos odd, if_pos (parity.trans odd), last]
    rfl
  · rw [padTail, padTail, if_neg odd, if_neg (parity.trans_ne odd)]

/-- Absorbing is the blocks, the padded tail and a last P. -/
theorem absorbMessage_eq_permutation_padTail (c : Params) (S : Grid) (m : List Byte) :
    absorbMessage c S m = permutation c (padTail m (absorbBlocks c m S)) := by
  induction S, m using absorbMessage.induct c with
  | case1 S m0 m1 rest ih => rw [absorbMessage, ih, absorbBlocks_cons_cons, padTail_cons_cons]
  | case2 S b => simp [absorbMessage, padTail, absorbBlocks, padByte]
  | case3 S => simp [absorbMessage, padTail, absorbBlocks, padByte]

/-! ### The digest, by the indexes of its pairs -/

theorem length_laterPairs (c : Params) (n : Nat) (S : Grid) : (laterPairs c n S).length = 2 * n := by
  induction n generalizing S with
  | zero => rfl
  | succ n ih => simp [laterPairs, digestPair, ih]; omega

/-- Pair j is bytes 0 and 1 after j + 1 applications of P. -/
theorem laterPairs_pair (c : Params) {n j : Nat} (hj : j < n) (S : Grid) :
    (laterPairs c n S)[2 * j]? = some (getByte ((permutation c)^[j + 1] S) 0) ∧
      (laterPairs c n S)[2 * j + 1]? = some (getByte ((permutation c)^[j + 1] S) 1) := by
  induction n generalizing j S with
  | zero => omega
  | succ n ih =>
    cases j with
    | zero => exact ⟨rfl, rfl⟩
    | succ j => exact ih (by omega) (permutation c S)

/-- The first pair comes after the padded tail's P, so the digest is eight pairs of the same kind. -/
theorem photon128_eq_laterPairs (c : Params) (m : List Byte) :
    photon128 c m = laterPairs c 8 (padTail m (absorbBlocks c m iv)) := by
  rw [photon128, absorbMessage_eq_permutation_padTail, ← laterPairs]

/-- Settles O57: the digest is eight pairs, each after one more P, from the padded tail on. -/
theorem photonFollowsTheSixSteps : Obligations.PhotonFollowsTheSixSteps := by
  intro c m absorbed padded
  have digest : photon128 c m = laterPairs c 8 padded := photon128_eq_laterPairs c m
  rw [digest]
  exact ⟨length_laterPairs c 8 padded, fun j hj => laterPairs_pair c hj padded⟩

/-! ### The run of HASH m -/

theorem P_eq_permutation (S : Grid) : P S = permutation Config.params S := by unfold P; rfl

/-- In ABSORB the message's commands complete, answer no result bytes and leave the absorbed message in SQUEEZE. -/
theorem completesAll_messageCommands (m : List Byte) {E : Engine} (legal : E.phase = .absorb) :
    CompletesAll E (messageCommands m)
      { E with S := absorbMessage Config.params E.S m, phase := .squeeze, sqcnt := 0 }
      (List.replicate (messageCommands m).length (okWord 0x00 0x00)) := by
  induction m using messageCommands.induct generalizing E with
  | case1 m0 m1 rest ih =>
    rw [absorbMessage, ← P_eq_permutation]
    exact .cons (.absorb m0 m1 legal) (ih legal)
  | case2 b =>
    rw [absorbMessage, ← P_eq_permutation]
    exact .cons (.pad1 b legal) (.nil _)
  | case3 =>
    rw [absorbMessage, ← P_eq_permutation]
    exact .cons (.pad0 legal) (.nil _)

theorem assembleDigest_cons_okWord (r0 r1 : Byte) (answers : List Word) :
    assembleDigest (okWord r0 r1 :: answers) = r0 :: r1 :: assembleDigest answers := by
  simp [assembleDigest, ← okResponse_eq_okWord, okResponse]

/-- E after a SQUEEZE that completes in it (R154). -/
def afterSqueeze (E : Engine) : Engine :=
  { E with S := squeezeState E, sqcnt := E.sqcnt + 1, phase := if E.sqcnt + 1 = 8 then .done else E.phase }

theorem completes_squeeze {E : Engine} (legal : E.phase = .squeeze) :
    Completes E .squeeze (afterSqueeze E) (getByte (squeezeState E) 0) (getByte (squeezeState E) 1) :=
  .squeeze legal

/-- Every SQUEEZE after the first emits from one more P (R242). -/
theorem squeezeState_afterSqueeze {E : Engine} (counted : E.sqcnt + 1 ≠ 0) :
    squeezeState (afterSqueeze E) = permutation Config.params (squeezeState E) := by
  rw [squeezeState_later counted, P_eq_permutation, afterSqueeze]

/-- The SQUEEZEs that bring SQCNT to 8 end the hash: they answer the pair of the state they begin with, then a pair
after each further P. -/
theorem completesAll_squeezes {n : Nat} {E : Engine} (legal : E.phase = .squeeze)
    (left : E.sqcnt.toNat + (n + 1) = 8) :
    ∃ G answers, CompletesAll E (List.replicate (n + 1) .squeeze) G answers ∧
      G.phase = .done ∧ G.sqcnt = 8 ∧ G.err = E.err ∧
      assembleDigest answers = digestPair (squeezeState E) ++ laterPairs Config.params n (squeezeState E) := by
  induction n generalizing E with
  | zero =>
    have eighth : E.sqcnt + 1 = 8 := by bv_omega
    exact ⟨_, _, .cons (completes_squeeze legal) (.nil _), if_pos eighth, eighth, rfl,
      assembleDigest_cons_okWord _ _ _⟩
  | succ n ih =>
    have more : E.sqcnt + 1 ≠ 8 := by bv_omega
    have counted : (E.sqcnt + 1).toNat = E.sqcnt.toNat + 1 := by bv_omega
    obtain ⟨G, answers, later, done, eight, err, digest⟩ := ih (E := afterSqueeze E) ((if_neg more).trans legal)
      (by rw [afterSqueeze, counted]; omega)
    refine ⟨G, _, .cons (completes_squeeze legal) later, done, eight, err, ?_⟩
    rw [assembleDigest_cons_okWord, digest, squeezeState_afterSqueeze (by bv_omega)]
    rfl

theorem CompletesAll.length_answers {E F : Engine} {is : List Instr} {answers : List Word}
    (h : CompletesAll E is F answers) : answers.length = is.length := by
  induction h with
  | nil => rfl
  | cons _ _ ih => simp [ih]

/-- Every answer of commands that complete is OK. -/
theorem CompletesAll.responseCode_eq_zero {E F : Engine} {is : List Instr} {answers : List Word}
    (h : CompletesAll E is F answers) : ∀ w ∈ answers, responseCode w = 0 := by
  induction h with
  | nil => simp
  | cons _ _ ih => simpa [← okResponse_eq_okWord] using ih

/-- Settles O59: INIT, the message's commands and the SQUEEZEs complete one after the other. -/
theorem hashCommandsComputePhoton128 : Obligations.HashCommandsComputePhoton128 := by
  intro m s
  obtain ⟨G, squeezed, squeezes, done, eight, err, digest⟩ := completesAll_squeezes (n := 7)
    (E := ⟨absorbMessage Config.params iv m, .squeeze, 0, none⟩) rfl rfl
  have hashed : CompletesAll s.engine (hashCommands m) G
      (okWord 0x00 0x00 :: (List.replicate (messageCommands m).length (okWord 0x00 0x00) ++ squeezed)) :=
    .cons .init ((completesAll_messageCommands m rfl).append squeezes)
  refine ⟨_, squeezed, run_of_completesAll (writeCommands_pending s _) hashed, ?_, squeezes.length_answers,
    squeezes.responseCode_eq_zero, digest, done, eight, err, rfl⟩
  simp [length_messageCommands, Nat.add_comm 1, List.replicate_succ]

/-- A call with a length within the buffer runs HASH on the first n bytes (R158). -/
theorem hash_of_length_within {n : Int} {buffer : List Byte} (nonneg : 0 ≤ n) (within : n ≤ buffer.length) (s : State) :
    hash n buffer s = run (hashCommands (buffer.take n.toNat)).length
      (writeCommands (hashCommands (buffer.take n.toNat)) s) :=
  if_neg (by omega)

/-- Settles O60: a bad length fails the call's own check, and every other call is the run of HASH. -/
theorem hashCallFaultsOnABadLength : Obligations.HashCallFaultsOnABadLength := by
  refine fun n buffer s => ⟨fun bad => if_pos bad, fun nonneg within => ?_⟩
  obtain ⟨t, squeezed, ran, responses, count, -, digest, -⟩ := hashCommandsComputePhoton128 (buffer.take n.toNat) s
  have length : (buffer.take n.toNat).length = n.toNat := List.length_take_of_le (by omega)
  rw [length] at responses
  exact ⟨t, squeezed, (hash_of_length_within nonneg within s).trans ran, responses, count, digest⟩

end Sys2Proof.Machine
end

section
/-! SUPPORT. The debug accesses RDSTATE, WRSTATE and RDSTATUS (R180 to R182), and what the commands that are legal in
every phase leave alone (R183). -/

namespace Sys2Proof.Machine

/-! ### The accesses -/

theorem exec_failedWith_of_raises {i : Instr} {c : ErrCode} {s : State} (raises : exec i s = raiseError c s) :
    ∃ t, exec i s = .next t ∧ failedWith c s t :=
  raises ▸ raiseError_failedWith c s

/-- Settles O35: below 18 RDSTATE completes in the E it found, from 18 on it raises RANGE, and its word is that of its
row. INIT then RDSTATE 15 answers byte 15 of IV. -/
theorem rdstateReadsOneByte : Obligations.RdstateReadsOneByte := by
  refine ⟨fun s k => ⟨fun mapped => ?_, fun unmapped => exec_failedWith_of_raises (exec_rdstate_unmapped unmapped s)⟩,
    getByte_engineReset, fun s => ?_, encodedAs_opcodeRow (r := ⟨.rdstate, 0x00000007, 0xFFFF00FF⟩) (by decide)⟩
  · refine ⟨_, exec_of_completes (.rdstate k mapped), rfl, rfl, ?_⟩
    simp [okResponse_eq_okWord]
  · have byte15 : okResponse (getByte iv 15) 0x00 = 0x00002000 := by decide
    exact ⟨_, _, exec_of_completes .init, exec_of_completes (.rdstate 15 (by decide)),
      congrArg (fun resp => _ ++ [resp]) byte15⟩

/-- Settles O36: below 18 WRSTATE completes with setByte at its index, which leaves the other bytes, from 18 on it
raises RANGE, and its word is that of its row. -/
theorem wrstateWritesOneByte : Obligations.WrstateWritesOneByte := by
  refine ⟨fun s k v => ⟨fun mapped => ?_,
      fun unmapped => exec_failedWith_of_raises (exec_wrstate_unmapped unmapped v s)⟩,
    encodedAs_opcodeRow (r := ⟨.wrstate, 0x00000008, 0xFF0000FF⟩) (by decide)⟩
  refine ⟨_, exec_of_completes (.wrstate k v mapped), fun j => ?_, rfl, rfl, rfl, rfl, ?_⟩
  · simp [getByte_setByte, Fin.ext_iff]
  · simp [okResponse_eq_okWord]

/-- After a complete hash STATUS reads 0x23, and 0xA3 once a further SQUEEZE has failed with SEQUENCE (R182). -/
theorem status_of_done {E : Engine} (done : E.phase = .done) (eight : E.sqcnt = 8) :
    (E.err = none → status E = 0x0023) ∧ (E.err = some .sequence → status E = 0x00A3) := by
  constructor <;> intro err <;> rw [status, done, eight, err] <;> rfl

/-- Settles O37: RDSTATUS completes in the E it found, the high byte of STATUS is 0, and its word is that of its row. -/
theorem rdstatusReadsStatus : Obligations.RdstatusReadsStatus := by
  refine ⟨fun s => ?_, fun E => status_of_done, by decide, fun s => ?_,
    encodedAs_opcodeRow (r := ⟨.rdstatus, 0x00000009, 0xFFFFFFFF⟩) (by decide)⟩
  · obtain ⟨-, -, -, high⟩ := status_fields s.engine
    refine ⟨_, exec_of_completes .rdstatus, rfl, rfl, ?_, high⟩
    simp [okResponse_eq_okWord, high]
  · have absorbing : status { S := iv, phase := .absorb, sqcnt := 0, err := none } = 0x0001 := by decide
    refine ⟨_, _, exec_of_completes .init, exec_of_completes .rdstatus, ?_⟩
    simp only [respond_responses, respond_engine, absorbing]
    rfl

/-! ### Freedom from the phase -/

/-- R183's commands, legal in every phase. -/
def PhaseFree (i : Instr) : Prop :=
  i = .permute ∨ (∃ a b, i = .gfmul a b) ∨ (∃ k, i = .rdstate k) ∨ (∃ k v, i = .wrstate k v) ∨ i = .rdstatus

/-- One of them completes and writes at most S, or its index is unmapped and it raises RANGE. -/
theorem PhaseFree.completes_or_raises_range {i : Instr} (hi : PhaseFree i) (s : State) :
    (∃ X r0 r1, Completes s.engine i { s.engine with S := X } r0 r1) ∨ exec i s = raiseError .range s := by
  rcases hi with rfl | ⟨a, b, rfl⟩ | ⟨k, rfl⟩ | ⟨k, v, rfl⟩ | rfl
  · exact .inl ⟨_, _, _, .permute⟩
  · exact .inl ⟨s.engine.S, _, _, .gfmul a b⟩
  · rcases Nat.lt_or_ge k.toNat 18 with mapped | unmapped
    · exact .inl ⟨s.engine.S, _, _, .rdstate k mapped⟩
    · exact .inr (exec_rdstate_unmapped unmapped s)
  · rcases Nat.lt_or_ge k.toNat 18 with mapped | unmapped
    · exact .inl ⟨_, _, _, .wrstate k v mapped⟩
    · exact .inr (exec_wrstate_unmapped unmapped v s)
  · exact .inl ⟨s.engine.S, _, _, .rdstatus⟩

/-- Settles O38: a completing one writes S alone and answers OK, and a failing one answers RANGE, which is not OK. -/
theorem debugCommandsArePhaseFree : Obligations.DebugCommandsArePhaseFree := by
  intro s i hi
  have phaseFree : PhaseFree i := hi
  rcases phaseFree.completes_or_raises_range s with ⟨X, r0, r1, completes⟩ | raises
  · exact ⟨_, okResponse r0 r1, exec_of_completes completes, rfl, by simp, rfl, rfl, fun _ => rfl⟩
  · exact ⟨_, errorResponse .range, raises, rfl, by decide, rfl, rfl, fun ok => absurd ok (by decide)⟩

end Sys2Proof.Machine
end

section
/-! SUPPORT. The exceptions family (spec 60_exceptions.md): the words that raise ILLEGAL (R201), the one failure of each
command (R202, R204), what a failing command leaves alone and what clears ERR (R203, R206), and R205's order. -/

namespace Sys2Proof

open Sys2Proof.Laws.Spelling (opcode)

/-! ### The words that spell a command, from their bits (R201) -/

theorem dataBytes_eq_zero_iff {w : Word} : w.extractLsb' 8 16 = 0 ↔ d0 w = 0 ∧ d1 w = 0 := by
  have join : d1 w ++ d0 w = w.extractLsb' 8 16 :=
    BitVec.extractLsb'_append_extractLsb'_eq_extractLsb' (start₁ := 8) (len₁ := 8) (len₂ := 8) rfl
  constructor
  · intro zero
    rw [zero] at join
    have low : d0 w = 0 := by rw [← BitVec.extractLsb'_append_eq_right (a := d1 w) (b := d0 w), join]; rfl
    have high : d1 w = 0 := by rw [← BitVec.extractLsb'_append_eq_left (a := d1 w) (b := d0 w), join]; rfl
    exact ⟨low, high⟩
  · rintro ⟨low, high⟩
    rw [← join, low, high]
    rfl

/-- The must-be-zero fields of a mnemonic's opcode are 0 exactly when the data bytes carry its operands. -/
theorem carries_commandWith_iff {w : Word} {m : Mnemonic} (ho : op w = opcode (commandWith m (d0 w) (d1 w))) :
    Carries w (commandWith m (d0 w) (d1 w)) ↔ Machine.mustBeZeroHolds w = true := by
  have opBits : w.extractLsb' 0 4 = opcode (commandWith m (d0 w) (d1 w)) := ho
  have d1Bits : w.extractLsb' 16 8 = d1 w := rfl
  have dataBits : w.extractLsb' 8 16 = 0#16 ↔ d0 w = 0#8 ∧ d1 w = 0#8 := dataBytes_eq_zero_iff
  cases m <;> simp [Machine.mustBeZeroHolds, opBits, commandWith, opcode, Carries, dataBits, d1Bits]

theorem opcode_lt_ten (i : Instr) : (opcode i).toNat < 10 := by cases i <;> simp [opcode]

theorem exists_mnemonic_of_op_lt_ten : ∀ o : Nibble, o.toNat < 10 →
    ∃ m ∈ Machine.mnemonics, opcode (commandWith m 0 0) = o := by decide

theorem opcode_commandWith (m : Mnemonic) (b0 b1 : Byte) :
    opcode (commandWith m b0 b1) = opcode (commandWith m 0 0) := by cases m <;> rfl

/-- R201's causes, all absent. -/
theorem exists_decode_ok_iff {w : Word} : (∃ i, decode w = .ok i) ↔
    rsv0 w = 0 ∧ rsv1 w = 0 ∧ (op w).toNat < 10 ∧ Machine.mustBeZeroHolds w = true := by
  constructor
  · rintro ⟨i, h⟩
    rw [eq_commandWith_of_decode h] at h
    obtain ⟨h0, h1, ho, carries⟩ := fields_of_decode h
    exact ⟨h0, h1, ho ▸ opcode_lt_ten _, (carries_commandWith_iff ho).mp carries⟩
  · rintro ⟨h0, h1, assigned, zero⟩
    obtain ⟨m, -, hm⟩ := exists_mnemonic_of_op_lt_ten (op w) assigned
    have ho : op w = opcode (commandWith m (d0 w) (d1 w)) := by rw [opcode_commandWith, hm]
    exact ⟨_, decode_of_fields h0 h1 ho ((carries_commandWith_iff ho).mpr zero)⟩

theorem exists_decode_error_iff {w : Word} : (∃ cause, decode w = .error cause) ↔
    rsv0 w ≠ 0 ∨ rsv1 w ≠ 0 ∨ 10 ≤ (op w).toNat ∨ Machine.mustBeZeroHolds w = false := by
  have notOk : (∃ cause, decode w = .error cause) ↔ ¬∃ i, decode w = .ok i := by cases decode w <;> simp
  rw [notOk, exists_decode_ok_iff, ← Nat.not_lt, ← Bool.not_eq_true]
  tauto

end Sys2Proof

namespace Sys2Proof.Machine

open Sys2Proof.Laws.Spelling (opcode)

/-- Settles O5: exists_decode_error_iff names the words, and the step on one of them raises ILLEGAL. -/
theorem illegalIsRaisedForItsCausesOnly : Obligations.IllegalIsRaisedForItsCausesOnly := by
  refine fun w => ⟨exists_decode_error_iff, fun s rest hp ⟨cause, hd⟩ => ?_⟩
  rw [step_of_pending_command hp, execWord_error hd]
  exact raiseError_failedWith .illegal _

/-! ### The one failure of each command (R202, R204) -/

/-- The state index of a command that has one (R204). -/
def stateIndexOf : Instr → Option Byte
  | .rdstate k => some k
  | .wrstate k _ => some k
  | _ => none

theorem exec_failedWith_of_unmapped {i : Instr} {k : Byte} (indexed : stateIndexOf i = some k) (unmapped : 18 ≤ k.toNat)
    (s : State) : ∃ t, exec i s = .next t ∧ failedWith .range s t := by
  apply exec_failedWith_of_raises
  cases i <;> cases indexed
  case rdstate => exact exec_rdstate_unmapped unmapped s
  case wrstate v => exact exec_wrstate_unmapped unmapped v s

/-- A command in its phase, with its index mapped, completes: it has no other way to fail (R202, R204). -/
theorem exists_completes {E : Engine} {i : Instr} (legal : ∀ p, spongePhase i = some p → E.phase = p)
    (mapped : ∀ k, stateIndexOf i = some k → k.toNat < 18) : ∃ F r0 r1, Completes E i F r0 r1 := by
  cases i with
  | init => exact ⟨_, _, _, .init⟩
  | absorb b0 b1 => exact ⟨_, _, _, .absorb b0 b1 (legal _ rfl)⟩
  | pad0 => exact ⟨_, _, _, .pad0 (legal _ rfl)⟩
  | pad1 b => exact ⟨_, _, _, .pad1 b (legal _ rfl)⟩
  | squeeze => exact ⟨_, _, _, .squeeze (legal _ rfl)⟩
  | permute => exact ⟨_, _, _, .permute⟩
  | gfmul a b => exact ⟨_, _, _, .gfmul a b⟩
  | rdstate k => exact ⟨_, _, _, .rdstate k (mapped _ rfl)⟩
  | wrstate k v => exact ⟨_, _, _, .wrstate k v (mapped _ rfl)⟩
  | rdstatus => exact ⟨_, _, _, .rdstatus⟩

/-- The call answers a next state with one response more, of this code. -/
def AnswersCode (code : BitVec 2) (s : State) (o : Result) : Prop :=
  ∃ t resp, o = .next t ∧ t.responses = s.responses ++ [resp] ∧ responseCode resp = code

theorem answersCode_of_failedWith {c : ErrCode} {s : State} {o : Result} (h : ∃ t, o = .next t ∧ failedWith c s t) :
    AnswersCode c.code s o := by
  obtain ⟨t, ht, -, -, -, -, -, -, answer⟩ := h
  exact ⟨t, _, ht, answer, by rw [← errorResponse_eq_code, responseCode_errorResponse]⟩

theorem Completes.answersCode_zero {s : State} {i : Instr} {F : Engine} {r0 r1 : Byte}
    (h : Completes s.engine i F r0 r1) : AnswersCode 0 s (exec i s) :=
  ⟨_, _, exec_of_completes h, rfl, responseCode_okResponse r0 r1⟩

/-- Settles O17: outside its phase a sponge command fails as exec_failedWith_of_phase_ne says; a command that is not
out of its phase completes, or its index is unmapped and it raises RANGE. -/
theorem sequenceIsRaisedOutOfPhaseOnly : Obligations.SequenceIsRaisedOutOfPhaseOnly := by
  refine fun s => ⟨fun out i hi => ?_, exec_failedWith_of_phase_ne rfl, fun i inAbsorb inSqueeze => ?_⟩
  · rcases hi with ⟨b0, b1, rfl⟩ | rfl | ⟨b, rfl⟩ <;> exact exec_failedWith_of_phase_ne rfl out
  have legal : ∀ p, spongePhase i = some p → s.engine.phase = p := by
    intro p checked
    cases i <;> cases checked
    case absorb b0 b1 => exact inAbsorb (.inl ⟨b0, b1, rfl⟩)
    case pad0 => exact inAbsorb (.inr (.inl rfl))
    case pad1 b => exact inAbsorb (.inr (.inr ⟨b, rfl⟩))
    case squeeze => exact inSqueeze rfl
  obtain ⟨code, notSequence, t, resp, ht, answer, hcode⟩ : ∃ code ≠ 2, AnswersCode code s (exec i s) := by
    by_cases mapped : ∀ k, stateIndexOf i = some k → k.toNat < 18
    · obtain ⟨F, r0, r1, completes⟩ := exists_completes legal mapped
      exact ⟨0, by decide, completes.answersCode_zero⟩
    · push Not at mapped
      obtain ⟨k, indexed, unmapped⟩ := mapped
      exact ⟨ErrCode.range.code, by decide, answersCode_of_failedWith (exec_failedWith_of_unmapped indexed unmapped s)⟩
  exact ⟨t, resp, ht, answer, hcode ▸ notSequence⟩

/-- Settles O18: from 18 on the access raises RANGE, and below 18 it completes. -/
theorem rangeIsRaisedFromIndexEighteenOn : Obligations.RangeIsRaisedFromIndexEighteenOn := by
  refine fun s k v => ⟨fun unmapped =>
    ⟨exec_failedWith_of_unmapped rfl unmapped s, exec_failedWith_of_unmapped rfl unmapped s⟩, fun mapped i hi => ?_⟩
  rcases hi with rfl | rfl
  · exact (Completes.rdstate k mapped).answersCode_zero
  · exact (Completes.wrstate k v mapped).answersCode_zero

/-! ### The order of the causes (R205) -/

section
variable {w : Word} {i : Instr}

theorem outOfPhase_eq_true_iff (h : decode w = .ok i) (p : Phase) :
    outOfPhase w p = true ↔ ∃ q, spongePhase i = some q ∧ p ≠ q := by
  obtain ⟨-, -, ho, -⟩ := fields_of_decode h
  have checked : outOfPhase w p = (spongePhase i).any fun q => p ≠ q := by
    rw [outOfPhase, show w.extractLsb' 0 4 = opcode i from ho]
    cases i <;> rfl
  simp [checked, Option.any_eq_true]

theorem unmappedIndex_eq_true_iff (h : decode w = .ok i) :
    unmappedIndex w = true ↔ ∃ k, stateIndexOf i = some k ∧ 18 ≤ k.toNat := by
  obtain ⟨-, -, ho, -⟩ := fields_of_decode h
  obtain ⟨m, rfl⟩ : ∃ m, i = commandWith m (d0 w) (d1 w) := ⟨_, eq_commandWith_of_decode h⟩
  have indexed : unmappedIndex w = (stateIndexOf (commandWith m (d0 w) (d1 w))).any fun k => 18 ≤ k.toNat := by
    rw [unmappedIndex, show w.extractLsb' 0 4 = opcode (commandWith m (d0 w) (d1 w)) from ho]
    cases m <;> rfl
  simp [indexed, Option.any_eq_true]

theorem expectedCode_of_decode_error {cause : IllegalCause} (h : decode w = .error cause) (p : Phase) :
    expectedCode w p = 1 := by
  have causes : w.extractLsb' 4 4 ≠ 0 ∨ w.extractLsb' 24 8 ≠ 0 ∨ 10 ≤ (w.extractLsb' 0 4).toNat ∨
      mustBeZeroHolds w = false := exists_decode_error_iff.mp ⟨cause, h⟩
  unfold expectedCode
  split
  next => rfl
  next first =>
    have second : mustBeZeroHolds w = false := by tauto
    rw [if_pos second]

theorem expectedCode_of_decode_ok (h : decode w = .ok i) (p : Phase) :
    expectedCode w p = if outOfPhase w p then 2 else if unmappedIndex w then 3 else 0 := by
  obtain ⟨h0, h1, assigned, zero⟩ := exists_decode_ok_iff.mp ⟨i, h⟩
  have first : ¬(w.extractLsb' 4 4 ≠ 0 ∨ w.extractLsb' 24 8 ≠ 0 ∨ 10 ≤ (w.extractLsb' 0 4).toNat) := by
    rintro (nonzero | nonzero | unassigned)
    · exact nonzero h0
    · exact nonzero h1
    · exact absurd assigned (Nat.not_lt.mpr unassigned)
  rw [expectedCode, if_neg first, if_neg (by simp [zero])]

end

/-- The sponge commands' opcodes lie below those of the commands with an index. -/
theorem not_outOfPhase_and_unmappedIndex (w : Word) (p : Phase) :
    ¬(outOfPhase w p = true ∧ unmappedIndex w = true) := by
  rintro ⟨out, unmapped⟩
  unfold outOfPhase at out
  split at out
  case h_5 => cases out
  all_goals next ho => simp [unmappedIndex, ho] at unmapped

/-- A word that spells no command raises ILLEGAL; one that does is checked for its phase, then for its index, and then
completes (R205). -/
theorem execWord_answersCode (w : Word) (s : State) :
    AnswersCode (expectedCode w s.engine.phase) s (execWord w s) := by
  cases hd : decode w with
  | error cause =>
    rw [execWord_error hd, expectedCode_of_decode_error hd]
    exact answersCode_of_failedWith (raiseError_failedWith .illegal s)
  | ok i =>
    rw [execWord_ok hd, expectedCode_of_decode_ok hd]
    split
    next out =>
      obtain ⟨q, checked, ne⟩ := (outOfPhase_eq_true_iff hd _).mp out
      exact answersCode_of_failedWith (exec_failedWith_of_phase_ne checked ne)
    next inPhase =>
      split
      next unmapped =>
        obtain ⟨k, indexed, unmapped⟩ := (unmappedIndex_eq_true_iff hd).mp unmapped
        exact answersCode_of_failedWith (exec_failedWith_of_unmapped indexed unmapped s)
      next mapped =>
        rw [outOfPhase_eq_true_iff hd] at inPhase
        rw [unmappedIndex_eq_true_iff hd] at mapped
        obtain ⟨F, r0, r1, completes⟩ := exists_completes (by simpa using inPhase) (by simpa using mapped)
        exact completes.answersCode_zero

/-- Settles O19: the step executes the word, and execWord_answersCode gives the code of its answer. -/
theorem firstCauseInPriorityOrderIsReported : Obligations.FirstCauseInPriorityOrderIsReported := by
  refine fun s w rest hp => ⟨?_, not_outOfPhase_and_unmappedIndex w _⟩
  rw [step_of_pending_command hp]
  exact execWord_answersCode w { s with pending := rest }

/-! ### What a failing command leaves, and what clears ERR (R203, R206) -/

theorem failedWith_of_raiseError {c : ErrCode} {s t : State} (h : raiseError c s = .next t) : failedWith c s t := by
  obtain ⟨u, hu, failed⟩ := raiseError_failedWith c s
  cases hu.symm.trans h
  exact failed

theorem eq_zero_of_decode_init {w : Word} (h : decode w = .ok .init) : w = 0x00000000 :=
  (eq_encode_of_decode h (by simp)).trans encode_init

theorem Completes.init_err {E F : Engine} {r0 r1 : Byte} (h : Completes E .init F r0 r1) : F.err = none := by
  cases h; rfl

/-- Once ERR holds an error, an act of the host keeps it, or the act is INIT or a reset and clears it. -/
theorem TakesEffect.err_kept_or_cleared {s t : State} {e : HostEvent} (effect : TakesEffect s t e)
    (held : s.engine.err ≠ none) : t.engine.err = s.engine.err ∨
      (t.engine.err = none ∧ (e = .command 0x00000000 ∨ e = .reset ∨ ∃ w, e = .commandCutByReset w)) := by
  cases effect with
  | @completed w i r0 r1 spells engine answer =>
    by_cases hi : i = .init
    · subst hi
      rw [eq_zero_of_decode_init spells]
      exact .inr ⟨engine.init_err, .inl rfl⟩
    · exact .inl (engine.err_eq hi)
  | @failed w c engine answer =>
    obtain ⟨d, hd⟩ := Option.ne_none_iff_exists'.mp held
    exact .inl (by rw [engine, hd, latchError_some])
  | reset engine answer => exact .inr ⟨by rw [engine, engineReset_err], .inr (.inl rfl)⟩
  | @cutByReset w engine answer => exact .inr ⟨by rw [engine, engineReset_err], .inr (.inr ⟨w, rfl⟩)⟩

/-- Settles O16: a word that answers a nonzero code did not complete, so it raised an error; and an act that changes a
held ERR clears it, as TakesEffect.err_kept_or_cleared says. -/
theorem failingCommandsOnlyLatchErr : Obligations.FailingCommandsOnlyLatchErr := by
  refine fun s t hs => ⟨fun w rest resp hp answer fails => ?_, fun held changed => ?_⟩
  · rw [step_of_pending_command hp] at hs
    rcases execWord_completes_or_fails w { s with pending := rest } with ⟨E, r0, r1, completes⟩ | ⟨c, raises⟩
    · obtain ⟨-, -, ok⟩ := complete_next (completes.symm.trans hs)
      obtain rfl : resp = okResponse r0 r1 := by simpa using answer.symm.trans ok
      exact absurd (responseCode_okResponse r0 r1) fails
    · obtain ⟨-, -, error⟩ := raiseError_next (raises.symm.trans hs)
      obtain rfl : resp = errorResponse c := by simpa using answer.symm.trans error
      exact ⟨c, responseCode_errorResponse c, failedWith_of_raiseError (raises.symm.trans hs)⟩
  · rcases step_takesEffect hs with ⟨-, rfl⟩ | ⟨e, hp, effect⟩
    · exact absurd rfl changed
    rcases effect.err_kept_or_cleared held with kept | ⟨cleared, act⟩
    · exact absurd kept changed
    · exact ⟨cleared, e, _, hp, act⟩

/-! ### Leaving IDLE (R232) -/

/-- What a command word other than INIT's keeps, a run of such words keeps. -/
theorem run_keeps_of_takesEffect {p : State → Prop}
    (keeps : ∀ {w s t}, w ≠ 0x00000000 → TakesEffect s t (.command w) → p s → p t)
    {ws : List Word} {rest : List HostEvent} {s t : State} (hp : s.pending = ws.map .command ++ rest)
    (notInit : ∀ w ∈ ws, w ≠ 0x00000000) (hrun : run ws.length s = .next t) (hs : p s) : p t := by
  induction ws generalizing s with
  | nil => cases hrun; exact hs
  | cons w ws ih =>
    obtain ⟨u, hu⟩ := step_answers_next s
    rw [List.length_cons, run_succ_of_step hu] at hrun
    rcases step_takesEffect hu with ⟨idle, -⟩ | ⟨e, he, effect⟩
    · simp [idle] at hp
    obtain ⟨rfl, pending⟩ : e = .command w ∧ u.pending = ws.map .command ++ rest := by
      simpa using he.symm.trans hp
    rw [List.forall_mem_cons] at notInit
    exact ih pending notInit.2 hrun (keeps notInit.1 effect hs)

/-- Of the commands that write PHASE, all but INIT need a phase other than IDLE to complete. -/
theorem TakesEffect.keeps_idle {w : Word} {s t : State} (notInit : w ≠ 0x00000000)
    (effect : TakesEffect s t (.command w)) (idle : s.engine.phase = .idle) : t.engine.phase = .idle := by
  cases effect with
  | completed spells engine answer =>
    rcases engine.phase_cases with kept | ⟨rfl, -⟩ | ⟨-, absorb, -⟩ | ⟨-, squeeze, -⟩
    · exact kept.trans idle
    · exact absurd (eq_zero_of_decode_init spells) notInit
    · cases idle.symm.trans absorb
    · cases idle.symm.trans squeeze
  | failed engine answer => rw [engine, idle]

/-- Settles O24: the run keeps IDLE, there every sponge command is out of its phase, and INIT completes in ABSORB. -/
theorem onlyInitLeavesIdle : Obligations.OnlyInitLeavesIdle := by
  intro ws rest s t idle hp notInit hrun
  have stays : t.engine.phase = .idle :=
    run_keeps_of_takesEffect (p := fun s => s.engine.phase = .idle) TakesEffect.keeps_idle hp notInit hrun idle
  have fails : ∀ {i q}, spongePhase i = some q → q ≠ .idle → ∃ u, exec i t = .next u ∧ failedWith .sequence t u :=
    fun checked ne => exec_failedWith_of_phase_ne checked (stays ▸ ne.symm)
  refine ⟨stays, fun i hi => ?_, _, exec_of_completes .init, rfl⟩
  rcases hi with ⟨b0, b1, rfl⟩ | rfl | ⟨b, rfl⟩ | rfl <;> exact fails rfl (by decide)

/-- Settles O10: the model's idle step. -/
theorem idleStepKeepsTheState : Obligations.IdleStepKeepsTheState :=
  fun _ => step_of_pending_nil

end Sys2Proof.Machine
end

section
/-! SUPPORT. The reset and hazards family (spec 70_reset_and_hazards.md), a command word cut by a reset (R235): the step that
takes it is the step that takes the reset alone. -/

namespace Sys2Proof.Machine

/-- The reset discards the word, so the step is the one that the reset alone would make. -/
theorem step_commandCutByReset {s : State} {w : Word} {rest : List HostEvent}
    (hp : s.pending = .commandCutByReset w :: rest) : step s = step { s with pending := .reset :: rest } := by
  rw [step_of_pending_cons hp, step_of_pending_cons (s := { s with pending := .reset :: rest }) rfl]
  rfl

/-- Settles O14: the step is a reset's, and resetSetsEveryField says what that does. -/
theorem resetDuringACommandUndoesIt : Obligations.ResetDuringACommandUndoesIt := by
  intro s w rest hp
  rw [step_commandCutByReset hp]
  exact resetSetsEveryField _ rest rfl

end Sys2Proof.Machine
end
